-- ==== Sys2Proof/Word.lean ====
section
/-! DEFINITION. The two widths of the block's data (00_scope.md R6): a byte of a byte region, and a value. -/

namespace Sys2Proof

/-- A byte of `CTL`, `PAY` or `ENV`, a command byte or a control byte (R6: 8 bits). -/
abbrev Byte := BitVec 8

/-- A value of a sequence or of a quad (R6: `W` = 32 bits, unsigned). -/
abbrev Word := BitVec 32

end Sys2Proof
end

