-- ==== Sys2Proof/Config.lean ====
section
/-! DEFINITION. The implementation parameters of 00_scope.md R6, and the free values: what the spec leaves without a
value. A free value is an opaque constant, so nothing can be proved of what it is. -/

namespace Sys2Proof

/-- The four regions (10_state.md R20). -/
inductive RegionName where
  | seq
  | ctl
  | pay
  | env
deriving DecidableEq, Repr

/-- `CTRL_ORDER` (30_encoding.md R62): which end of the control byte holds slot 0. -/
inductive CtrlOrder where
  | msf
  | lsf
deriving DecidableEq, Repr

/-- The parameters of one instance of the block, fixed for its life (R6, R17). A capacity `none` is "unbounded".
`SEQ_CAP` is at most `2^32 − 1` (R6, D30). -/
structure Config where
  ctrlOrder : CtrlOrder
  seqCap : Fin (2 ^ 32)
  ctlCap : Option Nat
  payCap : Option Nat
  envCap : Option Nat
deriving DecidableEq, Repr

/-- The capacity of a region. -/
def Config.cap (c : Config) : RegionName → Option Nat
  | .seq => some c.seqCap.val
  | .ctl => c.ctlCap
  | .pay => c.payCap
  | .env => c.envCap

/-- The parameters `State.reset` stands in. `CTRL_ORDER` is the spec's default; the spec gives no capacity.
DESIGN CHOICE (log 3), unsafe: no statement rests on it, each holds for every configuration. -/
def Config.initial : Config :=
  { ctrlOrder := .msf, seqCap := 4294967295, ctlCap := none, payCap := none, envCap := none }

/-- FREE VALUE (log 4), safe. What the storage of region `X` holds at index `i` where nothing has been written since the
region's storage last became unspecified, for the `epoch`-th time (10_state.md R23, R28; 93 U4, U6). A byte region takes the
low 8 bits. -/
opaque Config.unwritten (X : RegionName) (epoch i : Nat) : Word

/-- FREE VALUE (log 6), safe. What the `n`-th host read at or beyond a region's length returns (10_state.md R23; 93 U5).
A byte region takes the low 8 bits. -/
opaque Config.freeReply (n : Nat) : Word

/-- FREE VALUE (log 10), safe. Whether the `i`-th of the accesses held at the interface outlives a reset, taken when `SEQ` is in
its `epoch`-th epoch (every reset begins a new one): the spec says neither. -/
opaque Config.heldSurvivesReset (epoch i : Nat) : Bool

end Sys2Proof
end

