-- ==== Sys2Proof/Syntax.lean ====
section
/-! DEFINITION. The ten commands (30_encoding.md R66), one constructor each, with the operands the command byte carries
(R70): `diff`, and for `DENC` the count `r` of real values. -/

namespace Sys2Proof

/-- A command of the block, with the operands of its byte. -/
inductive Instr where
  /-- `QENC`, R82. -/
  | qenc
  /-- `QDEC`, R86. -/
  | qdec
  /-- `DENC diff, r`, R101. -/
  | denc (diff : Bool) (r : Nat)
  /-- `DDEC diff`, R104. -/
  | ddec (diff : Bool)
  /-- `COMP diff`, R112. -/
  | comp (diff : Bool)
  /-- `DECOMP diff`, R116. -/
  | decomp (diff : Bool)
  /-- `SER`, R131. -/
  | ser
  /-- `DESER`, R133. -/
  | deser
  /-- `COMPENV diff`, R136. -/
  | compenv (diff : Bool)
  /-- `DECOMPENV diff`, R137. -/
  | decompenv (diff : Bool)
deriving DecidableEq, Repr

end Sys2Proof
end

