-- ==== Sys2Proof/WellFormed.lean ====
section
/-! DEFINITION. Which terms of `Instr` are commands: the count `r` of `DENC` is 1 to 4 (30_encoding.md R70: `r = 0` cannot
be expressed). Every other operand takes all its values. -/

namespace Sys2Proof

/-- The command can be written as a command byte. -/
def Instr.wellFormed : Instr → Bool
  | .qenc => true
  | .qdec => true
  | .denc _ r => decide (1 ≤ r) && decide (r ≤ 4)
  | .ddec _ => true
  | .comp _ => true
  | .decomp _ => true
  | .ser => true
  | .deser => true
  | .compenv _ => true
  | .decompenv _ => true

end Sys2Proof
end

