-- ==== Sys2Proof/Decode.lean ====
section
/-! DEFINITION. The command byte `CMD8` (30_encoding.md R65 to R68, R70): the decoder, total on all 256 bytes and rejecting
by name, and the encoder. -/

namespace Sys2Proof

/-- Why a byte is no command (R67). The block answers all of them alike, with `IllegalCommand` (R157). -/
inductive DecodeReject where
  /-- Bit 7 is set. -/
  | reservedBit
  /-- `op` is 0x0 or 0xB to 0xF. -/
  | noSuchOperation
  /-- `diff` is 1 in a command that does not use it. -/
  | unusedDiff
  /-- `rm1` is not 0 in a command that does not use it. -/
  | unusedRm1
deriving DecidableEq, Repr

/-- The field `op`, bits 3:0 (R65). -/
def cmdOp (c : Byte) : Nat := (c.extractLsb' 0 4).toNat

/-- The field `diff`, bit 4 (R65). -/
def cmdDiff (c : Byte) : Bool := c.getLsbD 4

/-- The field `rm1`, bits 6:5 (R65). -/
def cmdRm1 (c : Byte) : Nat := (c.extractLsb' 5 2).toNat

/-- A command that uses neither `diff` nor `rm1`: both must be zero (R67). -/
def decodeBare (c : Byte) (i : Instr) : Except DecodeReject Instr :=
  if cmdDiff c then .error .unusedDiff
  else if cmdRm1 c ≠ 0 then .error .unusedRm1
  else .ok i

/-- A command that uses `diff` only: `rm1` must be zero (R67). -/
def decodeDiff (c : Byte) (i : Bool → Instr) : Except DecodeReject Instr :=
  if cmdRm1 c ≠ 0 then .error .unusedRm1 else .ok (i (cmdDiff c))

/-- Which command a byte is (R66), or why it is none (R67, R68). For `DENC`, `r = rm1 + 1` (R70). -/
def decode (c : Byte) : Except DecodeReject Instr :=
  if c.getLsbD 7 then .error .reservedBit
  else
    match cmdOp c with
    | 0x1 => decodeBare c .qenc
    | 0x2 => decodeBare c .qdec
    | 0x3 => .ok (.denc (cmdDiff c) (cmdRm1 c + 1))
    | 0x4 => decodeDiff c .ddec
    | 0x5 => decodeDiff c .comp
    | 0x6 => decodeDiff c .decomp
    | 0x7 => decodeBare c .ser
    | 0x8 => decodeBare c .deser
    | 0x9 => decodeDiff c .compenv
    | 0xA => decodeDiff c .decompenv
    | _ => .error .noSuchOperation

/-- The byte with the given fields and bit 7 clear (R65). -/
def cmd8 (op : Nat) (diff : Bool) (rm1 : Nat) : Byte :=
  0#1 ++ BitVec.ofNat 2 rm1 ++ BitVec.ofBool diff ++ BitVec.ofNat 4 op

/-- The command byte of a well-formed command (R66). -/
def encode : Instr → Byte
  | .qenc => cmd8 0x1 false 0
  | .qdec => cmd8 0x2 false 0
  | .denc diff r => cmd8 0x3 diff (r - 1)
  | .ddec diff => cmd8 0x4 diff 0
  | .comp diff => cmd8 0x5 diff 0
  | .decomp diff => cmd8 0x6 diff 0
  | .ser => cmd8 0x7 false 0
  | .deser => cmd8 0x8 false 0
  | .compenv diff => cmd8 0x9 diff 0
  | .decompenv diff => cmd8 0xA diff 0

/-- The columns `mask` and `match` of R66 for a command. -/
def maskMatch : Instr → Byte × Byte
  | .qenc => (0xFF#8, 0x01#8)
  | .qdec => (0xFF#8, 0x02#8)
  | .denc _ _ => (0x8F#8, 0x03#8)
  | .ddec _ => (0xEF#8, 0x04#8)
  | .comp _ => (0xEF#8, 0x05#8)
  | .decomp _ => (0xEF#8, 0x06#8)
  | .ser => (0xFF#8, 0x07#8)
  | .deser => (0xFF#8, 0x08#8)
  | .compenv _ => (0xEF#8, 0x09#8)
  | .decompenv _ => (0xEF#8, 0x0A#8)

/-- The command the decoder reads from a table word: the block's command is one byte, the word's low `nbits` bits (log 18). -/
def decodeTableWord (nbits w : Nat) : Option Instr :=
  (decode (BitVec.ofNat 8 (w % 2 ^ nbits))).toOption

end Sys2Proof
end

