-- ==== Sys2Proof/Machine/State.lean ====
section
/-! DEFINITION. The block's architectural state (10_state.md R10 to R28), the accesses held at its interface
(70_reset_and_hazards.md R184), the host's moves still to come, and the state after reset. All plain data. -/

namespace Sys2Proof.Machine

/-- Four values, slot 0 first: the registers `Q[0..3]` (R11), and a quad inside a command. -/
structure Quad where
  v0 : Word
  v1 : Word
  v2 : Word
  v3 : Word
deriving DecidableEq, Repr

/-- A region (R20): its length register, and its storage as (index, element) pairs with strictly rising indices.
An index that is not listed holds an unspecified value (R23, R28). `epoch` counts how often a command or a reset has made
the storage unspecified: the model's own field (log 14). -/
structure Region (α : Type) where
  len : Nat
  cells : List (Nat × α)
  epoch : Nat
deriving DecidableEq, Repr

/-- The host primitives (R29). A register number is 0x00 to 0x3F (R40). -/
inductive HostAccess where
  | regRead (n : Fin 64)
  | regWrite (n : Fin 64) (v : Nat)
  | regionRead (X : RegionName) (i : Nat)
  | regionWrite (X : RegionName) (i v : Nat)
deriving DecidableEq, Repr

/-- What happens at the interface, in the order in which it happens (log 1). -/
inductive HostEvent where
  /-- A host access arrives. -/
  | access (a : HostAccess)
  /-- The pin `rst` is asserted (R180, R181). -/
  | reset
  /-- Time passes: a running command completes; an idle block performs a held access if there is one. -/
  | elapse
deriving DecidableEq, Repr

/-- Why the machine stops with a fault. No command raises one. -/
inductive Fault where
  /-- A host `RegionRead` at an index at or beyond the region's capacity: no such element exists (R40). Raised by
  `regionRead`. Safe: the model stops. -/
  | noSuchElement
deriving DecidableEq, Repr

/-- Why the machine gives a move no meaning. No command is refused. -/
inductive Refusal where
  /-- An instruction without a meaning. No arm of `exec` answers it. Safe. -/
  | notModelled (mnemonic : String)
  /-- A host write of a region length above the capacity: no move in the spec (R18, 93 U7, D16). Raised by `regWrite`. Safe. -/
  | lengthAboveCapacity
  /-- A host `RegionWrite` at an index at or beyond the capacity: no move in the spec (R29, 93 U7, D16). Raised by
  `regionWrite`. Safe. -/
  | writeBeyondCapacity
  /-- A host write of a value that does not fit the register or element (log 8). Raised by `regWrite` and `regionWrite`. Safe. -/
  | valueTooWide
deriving DecidableEq, Repr

/-- The whole state. -/
structure State where
  /-- The parameters of the instance (R6); constant. -/
  cfg : Config
  /-- `STATUS` (R16). -/
  status : BitVec 8
  /-- `CMDR`, the latched command byte (R15). -/
  cmdr : BitVec 8
  /-- `ECOUNT` (R14). -/
  ecount : BitVec 32
  /-- `Q[0..3]` (R11). -/
  q : Quad
  /-- `CTRLB` (R12). -/
  ctrlb : BitVec 8
  /-- `NBYTES` (R13). -/
  nbytes : BitVec 5
  /-- Region `SEQ`, of words (R20, R22). -/
  seq : Region Word
  /-- Region `CTL`, of bytes (R20). -/
  ctl : Region Byte
  /-- Region `PAY`, of bytes (R20). -/
  pay : Region Byte
  /-- Region `ENV`, of bytes (R20). -/
  env : Region Byte
  /-- Accesses held at the interface since a command was running, oldest first (R184). -/
  held : List HostAccess
  /-- What still happens at the interface, in order: the model's own field (log 1). -/
  inbox : List HostEvent
  /-- What the reads performed so far returned, oldest first: the model's own field (log 13). -/
  replies : List (HostAccess × Nat)
  /-- How many unspecified read results have been drawn: the model's own field (log 14). -/
  draws : Nat
deriving DecidableEq, Repr

/-- An empty region whose storage is unspecified (R28). -/
def Region.empty {α : Type} : Region α := { len := 0, cells := [], epoch := 0 }

/-- The state after reset of an instance with the parameters `c` (R28). -/
def State.resetWith (c : Config) : State :=
  { cfg := c
    status := 0x00#8
    cmdr := 0x00#8
    ecount := 0x00000000#32
    q := ⟨0#32, 0#32, 0#32, 0#32⟩
    ctrlb := 0x00#8
    nbytes := 0#5
    seq := Region.empty
    ctl := Region.empty
    pay := Region.empty
    env := Region.empty
    held := []
    inbox := []
    replies := []
    draws := 0 }

/-- The machine right after reset (R28), with the parameters of `Config.initial` (log 3). -/
def State.reset : State := State.resetWith Config.initial

end Sys2Proof.Machine
end

