-- ==== Sys2Proof/Machine/Flags.lean ====
section
/-! DEFINITION. The block has no flags (10_state.md R19). The one condition a command leaves is `STATUS.err`: the error
kinds and their codes (60_exceptions.md R151) and the fields of `STATUS` (10_state.md R16). -/

namespace Sys2Proof.Machine

/-- The error kinds (R151). -/
inductive Err where
  | noError
  | truncatedInput
  | controlByteCountMismatch
  | illegalCommand
  | regionOverflow
deriving DecidableEq, Repr

/-- The code of an error kind (R151). -/
def errCode : Err → BitVec 3
  | .noError => 0
  | .truncatedInput => 1
  | .controlByteCountMismatch => 2
  | .illegalCommand => 3
  | .regionOverflow => 4

/-- `STATUS` as a word: `busy` bit 0, `done` bit 1, `err` bits 4:2, bits 7:5 zero (R16). -/
def statusWord (busy done : Bool) (err : BitVec 3) : BitVec 8 :=
  0#3 ++ err ++ BitVec.ofBool done ++ BitVec.ofBool busy

/-- `STATUS.busy` (R16). -/
def State.busy (s : State) : Bool := s.status.getLsbD 0

/-- `STATUS.done` (R16), which the pin `done` equals (R29). -/
def State.donePin (s : State) : Bool := s.status.getLsbD 1

/-- `STATUS.err` (R16), which the pins `err` equal (R29). -/
def State.errPin (s : State) : BitVec 3 := s.status.extractLsb' 2 3

/-- `CFG` (10_state.md R17): bit 0 tells `CTRL_ORDER`, the others read as zero. -/
def cfgWord (c : Config) : BitVec 8 :=
  match c.ctrlOrder with
  | .msf => 0x00#8
  | .lsf => 0x01#8

end Sys2Proof.Machine
end

