-- ==== Sys2Proof/Machine/Operands.lean ====
section
/-! DEFINITION. The operand forms shared by the commands: bytes of a value (00_scope.md R7, R8; 20_memory.md R42), `ceil4`
(30_encoding.md R71), the fields of a control byte (R61, R62), and padding (41_delta.md R100). -/

namespace Sys2Proof.Machine

/-- The quad's values, slot 0 first. -/
def Quad.toList (q : Quad) : List Word := [q.v0, q.v1, q.v2, q.v3]

/-- `klen(v)`, the minimal byte count of a value (R8). -/
def klen (v : Word) : Nat :=
  if v.toNat < 256 then 1
  else if v.toNat < 65536 then 2
  else if v.toNat < 16777216 then 3
  else 4

/-- `le_bytes(v, k)`: the low `k` bytes of `v`, least significant first (R7). -/
def leBytes (v : Word) : Nat → List Byte
  | 0 => []
  | k + 1 => v.setWidth 8 :: leBytes (v >>> 8) k

/-- `le_value(b)`: `Σ b[j] × 256^j` (R7). -/
def leValue : List Byte → Nat
  | [] => 0
  | b :: bs => b.toNat + 256 * leValue bs

/-- `zext_32(le_value(b))`, a value assembled from at most 4 bytes (R42, R70). -/
def leWord (b : List Byte) : Word := BitVec.ofNat 32 (leValue b)

/-- `ceil4(n)`: the number of quads of `n` values, on natural numbers (R71). -/
def ceil4 (n : Nat) : Nat := n / 4 + if n % 4 = 0 then 0 else 1

/-- `field(c, i)`: the length code of slot `i` (R62). -/
def field (o : CtrlOrder) (c : Byte) (i : Fin 4) : BitVec 2 :=
  match o with
  | .msf => c.extractLsb' (6 - 2 * i.val) 2
  | .lsf => c.extractLsb' (2 * i.val) 2

/-- `mkctrl(b_0, b_1, b_2, b_3)` (R62). -/
def mkctrl (o : CtrlOrder) (b0 b1 b2 b3 : BitVec 2) : Byte :=
  match o with
  | .msf => b0 ++ b1 ++ b2 ++ b3
  | .lsf => b3 ++ b2 ++ b1 ++ b0

/-- The byte count of slot `i` that a control byte declares: `k_i = b_i + 1` (R61). -/
def slotLen (o : CtrlOrder) (c : Byte) (i : Fin 4) : Nat := (field o c i).toNat + 1

/-- `qlen(c)`: the length of the quad's data (R61). -/
def qlen (o : CtrlOrder) (c : Byte) : Nat := slotLen o c 0 + slotLen o c 1 + slotLen o c 2 + slotLen o c 3

/-- The length code of a byte count: `b = k − 1` (R61, R81). -/
def lenCode (k : Nat) : BitVec 2 := BitVec.ofNat 2 (k - 1)

/-- `PadQuad(v, r)`: slots `r..3` take the value of slot `r − 1` (R100). Counts other than 1, 2 and 3 pad nothing; the
commands give 1 to 4 only (log 17). -/
def padQuad (v : Quad) (r : Nat) : Quad :=
  match r with
  | 1 => ⟨v.v0, v.v0, v.v0, v.v0⟩
  | 2 => ⟨v.v0, v.v1, v.v1, v.v1⟩
  | 3 => ⟨v.v0, v.v1, v.v2, v.v2⟩
  | _ => v

end Sys2Proof.Machine
end

