-- ==== Sys2Proof/Machine/Ops.lean ====
section
/-! DEFINITION. The named operations on regions and registers, and the life cycle of a command: its start
(60_exceptions.md R150), and its end, with or without an error (R154), as ONE shared operation. -/

namespace Sys2Proof.Machine

/-- The element listed at index `i`, if one is. -/
def cellGet {α : Type} : List (Nat × α) → Nat → Option α
  | [], _ => none
  | (k, v) :: cs, i => if i = k then some v else cellGet cs i

/-- Lists `v` at index `i`, in place of what was listed there, keeping the indices rising. -/
def cellSet {α : Type} : List (Nat × α) → Nat → α → List (Nat × α)
  | [], i, v => [(i, v)]
  | (k, w) :: cs, i, v =>
    if i < k then (i, v) :: (k, w) :: cs
    else if i = k then (i, v) :: cs
    else (k, w) :: cellSet cs i v

/-- The elements `l` listed from index `start` on. -/
def cellsFrom {α : Type} (start : Nat) : List α → List (Nat × α)
  | [] => []
  | v :: vs => (start, v) :: cellsFrom (start + 1) vs

/-- The unspecified word that `SEQ` storage holds where nothing is listed (10_state.md R23; log 4). -/
def freeWord (epoch i : Nat) : Word := Config.unwritten .seq epoch i

/-- The unspecified byte that the storage of a byte region holds where nothing is listed (10_state.md R23; log 4). -/
def freeByte (X : RegionName) (epoch i : Nat) : Byte := (Config.unwritten X epoch i).setWidth 8

/-- `X[i]`: the element of the storage at index `i`. -/
def Region.elem {α : Type} (free : Nat → Nat → α) (r : Region α) (i : Nat) : α :=
  (cellGet r.cells i).getD (free r.epoch i)

/-- A region's value `X[0], …, X[X.len − 1]` (R20). -/
def Region.values {α : Type} (free : Nat → Nat → α) (r : Region α) : List α :=
  (List.range r.len).map (r.elem free)

/-- `Clear(X); Append(X, l)` (00_scope.md R7): the region becomes `l`; storage beyond is unspecified (10_state.md R23). -/
def Region.store {α : Type} (r : Region α) (l : List α) : Region α :=
  { len := l.length, cells := cellsFrom 0 l, epoch := r.epoch + 1 }

/-- A region left empty by a failing command (60_exceptions.md R155) or by reset (10_state.md R28). -/
def Region.clear {α : Type} (r : Region α) : Region α := r.store []

/-- `X[i] <- v`, the length unchanged (10_state.md R29). -/
def Region.setElem {α : Type} (r : Region α) (i : Nat) (v : α) : Region α :=
  { r with cells := cellSet r.cells i v }

/-- The value of `SEQ`. -/
def State.seqVal (s : State) : List Word := s.seq.values freeWord

/-- The value of `CTL`. -/
def State.ctlVal (s : State) : List Byte := s.ctl.values (freeByte .ctl)

/-- The value of `PAY`. -/
def State.payVal (s : State) : List Byte := s.pay.values (freeByte .pay)

/-- The value of `ENV`. -/
def State.envVal (s : State) : List Byte := s.env.values (freeByte .env)

/-- The length register of a region (R18). -/
def State.regionLen (s : State) : RegionName → Nat
  | .seq => s.seq.len
  | .ctl => s.ctl.len
  | .pay => s.pay.len
  | .env => s.env.len

/-- A region with its length register written by the host (R18, R21). -/
def State.setRegionLen (s : State) (X : RegionName) (n : Nat) : State :=
  match X with
  | .seq => { s with seq := { s.seq with len := n } }
  | .ctl => { s with ctl := { s.ctl with len := n } }
  | .pay => { s with pay := { s.pay with len := n } }
  | .env => { s with env := { s.env with len := n } }

/-- `X[i]` as a number: the read of one element. -/
def State.readElem (s : State) (X : RegionName) (i : Nat) : Nat :=
  match X with
  | .seq => (s.seq.elem freeWord i).toNat
  | .ctl => (s.ctl.elem (freeByte .ctl) i).toNat
  | .pay => (s.pay.elem (freeByte .pay) i).toNat
  | .env => (s.env.elem (freeByte .env) i).toNat

/-- `X[i] <- v`: the write of one element. -/
def State.writeElem (s : State) (X : RegionName) (i v : Nat) : State :=
  match X with
  | .seq => { s with seq := s.seq.setElem i (BitVec.ofNat 32 v) }
  | .ctl => { s with ctl := s.ctl.setElem i (BitVec.ofNat 8 v) }
  | .pay => { s with pay := s.pay.setElem i (BitVec.ofNat 8 v) }
  | .env => { s with env := s.env.setElem i (BitVec.ofNat 8 v) }

/-- The number of values an element of the region can take (R40: 32 bits in `SEQ`, 8 bits elsewhere). -/
def elemBound : RegionName → Nat
  | .seq => 4294967296
  | .ctl => 256
  | .pay => 256
  | .env => 256

/-- `n` elements fit in a region of this capacity (R21). -/
def fits (cap : Option Nat) (n : Nat) : Bool :=
  match cap with
  | none => true
  | some c => decide (n ≤ c)

/-- Index `i` exists in a region of this capacity (R40). -/
def indexExists (cap : Option Nat) (i : Nat) : Bool :=
  match cap with
  | none => true
  | some c => decide (i < c)

/-- The start of a command at an accepted write of the byte `c` to `CMD` (R150): the byte is latched, `busy` rises, `done`
and `err` are cleared. There is no other way to leave an error behind: no return instruction (R160). -/
def startCommand (c : Byte) (s : State) : State :=
  { s with cmdr := c, status := statusWord true false (errCode .noError) }

/-- The end of a command with the error `e`, or with none (R154): `busy` falls, `done` rises, `err` takes the code.
Control goes nowhere and nothing is saved. -/
def complete (e : Err) (s : State) : State :=
  { s with status := statusWord false true (errCode e) }

end Sys2Proof.Machine
end

