-- ==== Sys2Proof/Machine/Delta.lean ====
section
/-! DEFINITION. The delta encoder and decoder, units U3 and U4 (41_delta.md), and the commands `DENC` and `DDEC`. All
arithmetic is modulo `2^32` (R105). -/

namespace Sys2Proof.Machine

/-- `DeltaFwd(v, r)`: pads, then takes the difference of each slot from the one before it; slot 0 stays absolute (R100). -/
def deltaFwd (v : Quad) (r : Nat) : Quad :=
  let p := padQuad v r
  ⟨p.v0, p.v1 - p.v0, p.v2 - p.v1, p.v3 - p.v2⟩

/-- `DeltaInv(d)`: each slot adds its delta to the reconstructed slot before it (R103). -/
def deltaInv (d : Quad) : Quad :=
  let v1 := d.v1 + d.v0
  let v2 := d.v2 + v1
  let v3 := d.v3 + v2
  ⟨d.v0, v1, v2, v3⟩

/-- `DENC diff, r` (R101). With `diff = 0` the quad is left as it is, padding included (C1, D27). -/
def execDenc (diff : Bool) (r : Nat) (s : State) : Host.Outcome State Fault Refusal :=
  .next (complete .noError (if diff then { s with q := deltaFwd s.q r } else s))

/-- `DDEC diff` (R104). -/
def execDdec (diff : Bool) (s : State) : Host.Outcome State Fault Refusal :=
  .next (complete .noError (if diff then { s with q := deltaInv s.q } else s))

end Sys2Proof.Machine
end

