-- ==== Sys2Proof/Machine/QuadCodec.lean ====
section
/-! DEFINITION. The quad encoder and decoder, units U1 and U2 (40_quad_codec.md), and the commands `QENC` and `QDEC`. -/

namespace Sys2Proof.Machine

/-- `QuadEncode(v) → (data, ctrl)` (R81). -/
def quadEncode (o : CtrlOrder) (v : Quad) : List Byte × Byte :=
  (leBytes v.v0 (klen v.v0) ++ leBytes v.v1 (klen v.v1) ++ leBytes v.v2 (klen v.v2) ++ leBytes v.v3 (klen v.v3),
   mkctrl o (lenCode (klen v.v0)) (lenCode (klen v.v1)) (lenCode (klen v.v2)) (lenCode (klen v.v3)))

/-- The `k` bytes of `s` from offset `o` on, as a value (R85). -/
def valueAt (s : List Byte) (o k : Nat) : Word := leWord ((s.drop o).take k)

/-- `QuadDecode(s, ctrl) → (v, n)`, or nothing where the spec says `TruncatedInput` (R85). The total is checked first. -/
def quadDecode (o : CtrlOrder) (s : List Byte) (c : Byte) : Option (Quad × Nat) :=
  if s.length < qlen o c then none
  else
    let k0 := slotLen o c 0
    let k1 := slotLen o c 1
    let k2 := slotLen o c 2
    let k3 := slotLen o c 3
    some (⟨valueAt s 0 k0, valueAt s k0 k1, valueAt s (k0 + k1) k2, valueAt s (k0 + k1 + k2) k3⟩, qlen o c)

/-- `QENC` (R82). -/
def execQenc (s : State) : Host.Outcome State Fault Refusal :=
  let data := (quadEncode s.cfg.ctrlOrder s.q).1
  let ctrl := (quadEncode s.cfg.ctrlOrder s.q).2
  if fits (s.cfg.cap .pay) data.length then
    .next (complete .noError
      { s with pay := s.pay.store data, ctrlb := ctrl, nbytes := BitVec.ofNat 5 data.length })
  else .next (complete .regionOverflow { s with pay := s.pay.clear })

/-- `QDEC` (R86). -/
def execQdec (s : State) : Host.Outcome State Fault Refusal :=
  match quadDecode s.cfg.ctrlOrder s.payVal s.ctrlb with
  | none => .next (complete .truncatedInput s)
  | some (v, n) => .next (complete .noError { s with q := v, nbytes := BitVec.ofNat 5 n })

end Sys2Proof.Machine
end

