-- ==== Sys2Proof/Machine/Stream.lean ====
section
/-! DEFINITION. The stream quad splitter and joiner, unit U5 (42_stream.md), and the commands `COMP` and `DECOMP`. The
splitter walks the sequence four values at a time; the joiner walks `CTL` and `PAY` together (30_encoding.md R69). -/

namespace Sys2Proof.Machine

/-- All the quads `SplitQuad` gives for a sequence, in order, each with its real-value count `r` (R110). The last quad is
padded whatever `diff` is (C1); the slots written here as 0 are overwritten by the padding and never read (93 U18). -/
def splitQuads : List Word → List (Quad × Nat)
  | [] => []
  | [a] => [(padQuad ⟨a, 0, 0, 0⟩ 1, 1)]
  | [a, b] => [(padQuad ⟨a, b, 0, 0⟩ 2, 2)]
  | [a, b, c] => [(padQuad ⟨a, b, c, 0⟩ 3, 3)]
  | a :: b :: c :: d :: rest => (padQuad ⟨a, b, c, d⟩ 4, 4) :: splitQuads rest

/-- What the compressor does to one quad: delta if `diff`, then encode (R112). -/
def compressQuad (o : CtrlOrder) (diff : Bool) (tr : Quad × Nat) : List Byte × Byte :=
  quadEncode o (if diff then deltaFwd tr.1 tr.2 else tr.1)

/-- `Compress(s, diff) → (pay, ctl)`; the third result, `N`, is the sequence's length (R112). -/
def compress (o : CtrlOrder) (diff : Bool) (s : List Word) : List Byte × List Byte :=
  let quads := (splitQuads s).map (compressQuad o diff)
  ((quads.map Prod.fst).flatten, quads.map Prod.snd)

/-- The loop of `Decompress` over the control bytes: the accumulator of decoded values, or nothing where some quad starves
(R116). -/
def decodeQuads (o : CtrlOrder) (diff : Bool) : List Byte → List Byte → Option (List Word)
  | [], _ => some []
  | c :: ctl, pay =>
    match quadDecode o pay c with
    | none => none
    | some (v, n) =>
      match decodeQuads o diff ctl (pay.drop n) with
      | none => none
      | some acc => some ((if diff then deltaInv v else v).toList ++ acc)

/-- `Decompress(pay, ctl, N, diff)`: the count check first, then the loop, then the truncation to `N` values (R114 to
R116). -/
def decompress (o : CtrlOrder) (diff : Bool) (pay ctl : List Byte) (n : Nat) : Except Err (List Word) :=
  if ctl.length ≠ ceil4 n then .error .controlByteCountMismatch
  else
    match decodeQuads o diff ctl pay with
    | none => .error .truncatedInput
    | some acc => .ok (acc.take n)

/-- The stage `COMP`: the state after it, and its error (R112, R155). -/
def compStage (diff : Bool) (s : State) : State × Err :=
  let pay := (compress s.cfg.ctrlOrder diff s.seqVal).1
  let ctl := (compress s.cfg.ctrlOrder diff s.seqVal).2
  if fits (s.cfg.cap .pay) pay.length && fits (s.cfg.cap .ctl) ctl.length then
    ({ s with pay := s.pay.store pay, ctl := s.ctl.store ctl, ecount := BitVec.ofNat 32 s.seq.len }, .noError)
  else ({ s with pay := s.pay.clear, ctl := s.ctl.clear }, .regionOverflow)

/-- The stage `DECOMP`: the state after it, and its error (R116, R155). The capacity is checked last (R159). -/
def decompStage (diff : Bool) (s : State) : State × Err :=
  match decompress s.cfg.ctrlOrder diff s.payVal s.ctlVal s.ecount.toNat with
  | .error e => ({ s with seq := s.seq.clear }, e)
  | .ok out =>
    if fits (s.cfg.cap .seq) s.ecount.toNat then ({ s with seq := s.seq.store out }, .noError)
    else ({ s with seq := s.seq.clear }, .regionOverflow)

/-- `COMP diff` (R112). -/
def execComp (diff : Bool) (s : State) : Host.Outcome State Fault Refusal :=
  .next (complete (compStage diff s).2 (compStage diff s).1)

/-- `DECOMP diff` (R116). -/
def execDecomp (diff : Bool) (s : State) : Host.Outcome State Fault Refusal :=
  .next (complete (decompStage diff s).2 (decompStage diff s).1)

end Sys2Proof.Machine
end

