-- ==== Sys2Proof/Machine/Envelope.lean ====
section
/-! DEFINITION. The envelope framer, unit U6 (43_envelope.md), the commands `SER` and `DESER`, and the composite commands
`COMPENV` and `DECOMPENV`, each the sequence of two stages (R135). -/

namespace Sys2Proof.Machine

/-- `Serialize(pay, ctl, N)` (R131). -/
def serialize (pay ctl : List Byte) (n : Word) : List Byte := leBytes n 4 ++ ctl ++ pay

/-- `Deserialize(env) → (pay, ctl, N)`, or nothing where the spec says `TruncatedInput` (R132). -/
def deserialize (env : List Byte) : Option (List Byte × List Byte × Word) :=
  if env.length < 4 then none
  else
    let n := leWord (env.take 4)
    let c := ceil4 n.toNat
    if env.length < 4 + c then none
    else some (env.drop (4 + c), (env.drop 4).take c, n)

/-- The stage `SER`: the state after it, and its error (R131, R155). -/
def serStage (s : State) : State × Err :=
  let env := serialize s.payVal s.ctlVal s.ecount
  if fits (s.cfg.cap .env) env.length then ({ s with env := s.env.store env }, .noError)
  else ({ s with env := s.env.clear }, .regionOverflow)

/-- The stage `DESER`: the state after it, and its error (R133, R155). -/
def deserStage (s : State) : State × Err :=
  match deserialize s.envVal with
  | none => ({ s with ctl := s.ctl.clear, pay := s.pay.clear }, .truncatedInput)
  | some (pay, ctl, n) =>
    if fits (s.cfg.cap .ctl) ctl.length && fits (s.cfg.cap .pay) pay.length then
      ({ s with ctl := s.ctl.store ctl, pay := s.pay.store pay, ecount := n }, .noError)
    else ({ s with ctl := s.ctl.clear, pay := s.pay.clear }, .regionOverflow)

/-- `SER` (R131). -/
def execSer (s : State) : Host.Outcome State Fault Refusal :=
  .next (complete (serStage s).2 (serStage s).1)

/-- `DESER` (R133). -/
def execDeser (s : State) : Host.Outcome State Fault Refusal :=
  .next (complete (deserStage s).2 (deserStage s).1)

/-- `COMPENV diff` (R136): `COMP`, and if it succeeds `SER`. When `COMP` fails, `ENV` is emptied too. -/
def execCompenv (diff : Bool) (s : State) : Host.Outcome State Fault Refusal :=
  match compStage diff s with
  | (s1, .noError) => .next (complete (serStage s1).2 (serStage s1).1)
  | (s1, e) => .next (complete e { s1 with env := s1.env.clear })

/-- `DECOMPENV diff` (R137): `DESER`, and if it succeeds `DECOMP`. When `DESER` fails, `SEQ` is emptied too. -/
def execDecompenv (diff : Bool) (s : State) : Host.Outcome State Fault Refusal :=
  match deserStage s with
  | (s1, .noError) => .next (complete (decompStage diff s1).2 (decompStage diff s1).1)
  | (s1, e) => .next (complete e { s1 with seq := s1.seq.clear })

end Sys2Proof.Machine
end

