-- ==== Sys2Proof/Machine/Dispatch.lean ====
section
/-! DEFINITION. What a command does, one arm per constructor of `Instr`: the command's whole effect, its end included
(60_exceptions.md R154). -/

namespace Sys2Proof.Machine

/-- The command `i` run to its end. -/
def exec (i : Instr) (s : State) : Host.Outcome State Fault Refusal :=
  match i with
  | .qenc => Sys2Proof.Machine.execQenc s
  | .qdec => Sys2Proof.Machine.execQdec s
  | .denc diff r => Sys2Proof.Machine.execDenc diff r s
  | .ddec diff => Sys2Proof.Machine.execDdec diff s
  | .comp diff => Sys2Proof.Machine.execComp diff s
  | .decomp diff => Sys2Proof.Machine.execDecomp diff s
  | .ser => Sys2Proof.Machine.execSer s
  | .deser => Sys2Proof.Machine.execDeser s
  | .compenv diff => Sys2Proof.Machine.execCompenv diff s
  | .decompenv diff => Sys2Proof.Machine.execDecompenv diff s

end Sys2Proof.Machine
end

