-- ==== Sys2Proof/Machine/HostPort.lean ====
section
/-! DEFINITION. The host's side of the block: the four primitives (10_state.md R29) over the register map (R18) and the
regions, which accesses are served while busy (70_reset_and_hazards.md R184), and reset (R180, R181). -/

namespace Sys2Proof.Machine

/-- The registers of the register map (R18). -/
inductive Reg where
  | cmd
  | status
  | cfg
  | ecount
  | q0
  | q1
  | q2
  | q3
  | ctrlb
  | nbytes
  | len (X : RegionName)
  | reserved
deriving DecidableEq, Repr

/-- The register with a number (R18): 0x0E to 0x3F are reserved. -/
def regOf (n : Fin 64) : Reg :=
  match n.val with
  | 0x00 => .cmd
  | 0x01 => .status
  | 0x02 => .cfg
  | 0x03 => .ecount
  | 0x04 => .q0
  | 0x05 => .q1
  | 0x06 => .q2
  | 0x07 => .q3
  | 0x08 => .ctrlb
  | 0x09 => .nbytes
  | 0x0A => .len .seq
  | 0x0B => .len .ctl
  | 0x0C => .len .pay
  | 0x0D => .len .env
  | _ => .reserved

/-- What a read of a register returns (R18): `CMD` and the reserved numbers return 0. Reading changes nothing (20_memory.md
R46). -/
def regValue (s : State) : Reg → Nat
  | .cmd => 0
  | .status => s.status.toNat
  | .cfg => (cfgWord s.cfg).toNat
  | .ecount => s.ecount.toNat
  | .q0 => s.q.v0.toNat
  | .q1 => s.q.v1.toNat
  | .q2 => s.q.v2.toNat
  | .q3 => s.q.v3.toNat
  | .ctrlb => s.ctrlb.toNat
  | .nbytes => s.nbytes.toNat
  | .len X => s.regionLen X
  | .reserved => 0

/-- A register written with a value of its width, refused when the value is wider (log 8). -/
def ifFits (v bound : Nat) (s' : State) : Host.Outcome State Fault Refusal :=
  if v < bound then .next s' else .refused .valueTooWide

/-- A host write of a register of an idle block (R18). A write of `CMD` starts a command (60_exceptions.md R150); `STATUS`,
`CFG`, `NBYTES` and the reserved numbers ignore writes; a region length above the capacity has no move (93 U7). -/
def regWrite (s : State) (r : Reg) (v : Nat) : Host.Outcome State Fault Refusal :=
  match r with
  | .cmd => ifFits v 256 (startCommand (BitVec.ofNat 8 v) s)
  | .status => .next s
  | .cfg => .next s
  | .ecount => ifFits v 4294967296 { s with ecount := BitVec.ofNat 32 v }
  | .q0 => ifFits v 4294967296 { s with q := { s.q with v0 := BitVec.ofNat 32 v } }
  | .q1 => ifFits v 4294967296 { s with q := { s.q with v1 := BitVec.ofNat 32 v } }
  | .q2 => ifFits v 4294967296 { s with q := { s.q with v2 := BitVec.ofNat 32 v } }
  | .q3 => ifFits v 4294967296 { s with q := { s.q with v3 := BitVec.ofNat 32 v } }
  | .ctrlb => ifFits v 256 { s with ctrlb := BitVec.ofNat 8 v }
  | .nbytes => .next s
  | .len X => if fits (s.cfg.cap X) v then .next (s.setRegionLen X v) else .refused .lengthAboveCapacity
  | .reserved => .next s

/-- The unspecified value the `n`-th host read at or beyond a region's length returns (10_state.md R23; log 6). -/
def freeElem (X : RegionName) (n : Nat) : Nat := (Config.freeReply n).toNat % elemBound X

/-- The result `v` of the read `a` reaches the host. -/
def reply (s : State) (a : HostAccess) (v : Nat) : State := { s with replies := s.replies ++ [(a, v)] }

/-- A host `RegionRead(X, i)` of an idle block (R29): the element below the length; an unspecified value from the length
to the capacity (R23); no element beyond (R40). -/
def regionRead (s : State) (X : RegionName) (i : Nat) : Host.Outcome State Fault Refusal :=
  if i < s.regionLen X then .next (reply s (.regionRead X i) (s.readElem X i))
  else if indexExists (s.cfg.cap X) i then
    .next { reply s (.regionRead X i) (freeElem X s.draws) with draws := s.draws + 1 }
  else .fault .noSuchElement

/-- A host `RegionWrite(X, i, v)` of an idle block (R29): the length is unchanged; no move beyond the capacity (93 U7). -/
def regionWrite (s : State) (X : RegionName) (i v : Nat) : Host.Outcome State Fault Refusal :=
  if indexExists (s.cfg.cap X) i then ifFits v (elemBound X) (s.writeElem X i v)
  else .refused .writeBeyondCapacity

/-- A host access performed (R29). -/
def perform (a : HostAccess) (s : State) : Host.Outcome State Fault Refusal :=
  match a with
  | .regRead n => .next (reply s a (regValue s (regOf n)))
  | .regWrite n v => regWrite s (regOf n) v
  | .regionRead X i => regionRead s X i
  | .regionWrite X i v => regionWrite s X i v

/-- The accesses a busy block serves at once: reads of `STATUS`, `CFG` and `CMD` (R184). -/
def servedWhileBusy : HostAccess → Bool
  | .regRead n => decide (n.val ≤ 2)
  | .regWrite _ _ => false
  | .regionRead _ _ => false
  | .regionWrite _ _ _ => false

/-- Which of the accesses held, from the `i`-th on, are still held after a reset: the spec does not say (log 10). -/
def heldAfterReset (epoch i : Nat) : List HostAccess → List HostAccess
  | [] => []
  | a :: as =>
    if Config.heldSurvivesReset epoch i then a :: heldAfterReset epoch (i + 1) as else heldAfterReset epoch (i + 1) as

/-- Reset, taken in any state (R180, R181): every register as R28 says, every region empty, the parameters as configured;
a running command is abandoned. The model's own fields stay. -/
def resetBlock (s : State) : State :=
  { State.resetWith s.cfg with
    seq := s.seq.clear
    ctl := s.ctl.clear
    pay := s.pay.clear
    env := s.env.clear
    held := heldAfterReset s.seq.epoch 0 s.held
    inbox := s.inbox
    replies := s.replies
    draws := s.draws }

end Sys2Proof.Machine
end

