-- ==== Sys2Proof/Machine/Sequencer.lean ====
section
/-! DEFINITION. Who moves next, host or block, and what the move does (00_scope.md R5; 60_exceptions.md R150, R154;
70_reset_and_hazards.md R180, R181, R184). A command runs in one step (20_memory.md R48). -/

namespace Sys2Proof.Machine

/-- The block runs the latched command to its end: a legal byte as its command says; any other with `IllegalCommand`, and
nothing else changes (R157). -/
def runCommand (s : State) : Host.Outcome State Fault Refusal :=
  match decode s.cmdr with
  | .ok i => exec i s
  | .error _ => .next (complete .illegalCommand s)

/-- A move while a command runs (R184): reads of `STATUS`, `CFG` and `CMD` are served, other accesses are held, a reset
abandons the command, and otherwise the command completes. -/
def moveBusy (s : State) : Host.Outcome State Fault Refusal :=
  match s.inbox with
  | [] => runCommand s
  | .elapse :: es => runCommand { s with inbox := es }
  | .reset :: es => .next (resetBlock { s with inbox := es })
  | .access a :: es =>
    if servedWhileBusy a then perform a { s with inbox := es }
    else .next { s with inbox := es, held := s.held ++ [a] }

/-- A move of an idle block that holds no access: the next host move is performed; without one the block waits. -/
def moveIdle (s : State) : Host.Outcome State Fault Refusal :=
  match s.inbox with
  | [] => .next s
  | .elapse :: es => .next { s with inbox := es }
  | .reset :: es => .next (resetBlock { s with inbox := es })
  | .access a :: es => perform a { s with inbox := es }

/-- A move of an idle block that still holds the access `a` (R184): it takes effect before any later access; a reset may
come first (R180). -/
def moveHeld (a : HostAccess) (as : List HostAccess) (s : State) : Host.Outcome State Fault Refusal :=
  match s.inbox with
  | [] => perform a { s with held := as }
  | .elapse :: es => perform a { s with held := as, inbox := es }
  | .reset :: es => .next (resetBlock { s with inbox := es })
  | .access _ :: _ => perform a { s with held := as }

/-- One move of the machine. -/
def move (s : State) : Host.Outcome State Fault Refusal :=
  if s.busy then moveBusy s
  else
    match s.held with
    | [] => moveIdle s
    | a :: as => moveHeld a as s

end Sys2Proof.Machine
end

