-- ==== Sys2Proof/Machine/Step.lean ====
section
/-! DEFINITION. One step of the machine, and how a command word is put where the next step takes its command from. -/

namespace Sys2Proof.Machine

/-- One step: one move of the host or of the block. -/
def step (s : State) : Host.Outcome State Fault Refusal := Sys2Proof.Machine.move s

/-- `s` with the command byte `w` accepted (60_exceptions.md R150) and the block to move next, so that the very next step
runs it (log 12). -/
def State.withFetchWord (s : State) (nbits w : Nat) : State :=
  { startCommand (BitVec.ofNat 8 (w % 2 ^ nbits)) s with inbox := .elapse :: s.inbox }

end Sys2Proof.Machine
end

