-- ==== Sys2Proof/Safety.lean ====
section
/-! DEFINITION. The terms the statements are made in: the invariant of the machine, the footprint table of 20_memory.md
R41, and the index forms in which the rules speak of quads and cursors. -/

namespace Sys2Proof.Machine

/-- Slot `i` of a quad (00_scope.md R9). -/
def Quad.slot (q : Quad) (i : Fin 4) : Word :=
  match i with
  | 0 => q.v0
  | 1 => q.v1
  | 2 => q.v2
  | 3 => q.v3

/-- The payload cursor before quad `j`: the sum of `qlen` of the earlier control bytes (20_memory.md R51). -/
def payCursor (o : CtrlOrder) (ctl : List Byte) (j : Nat) : Nat := ((ctl.take j).map (qlen o)).sum

/-- Some quad `j` needs more payload bytes than remain (60_exceptions.md R152 b). -/
def Starves (o : CtrlOrder) (pay ctl : List Byte) : Prop :=
  ∃ j, j < ctl.length ∧ pay.length < payCursor o ctl j + qlen o (ctl.getD j 0#8)

/-- The canonical form of a region's storage: strictly rising indices, each below the capacity, and a length the capacity
admits (10_state.md R20, R21). An index that is not listed holds a free value, which no entry can be compared with (log 4). -/
def Region.wf {α : Type} (cap : Option Nat) (r : Region α) : Bool :=
  decide ((r.cells.map Prod.fst).Pairwise (· < ·)) && r.cells.all (fun c => indexExists cap c.1) && fits cap r.len

/-- Every region is in canonical form. -/
def Memory.wf (s : State) : Bool :=
  s.seq.wf (s.cfg.cap .seq) && s.ctl.wf (s.cfg.cap .ctl) && s.pay.wf (s.cfg.cap .pay) && s.env.wf (s.cfg.cap .env)

/-- The values `STATUS` takes (10_state.md R16): idle after reset, busy, or done with one of the five codes. So `busy` and
`done` are never both 1, `err` is 0 while busy, codes 5 to 7 are never produced and bits 7:5 read as zero. -/
def statusLegal (w : BitVec 8) : Bool :=
  w ∈ [0x00#8, 0x01#8, 0x02#8, 0x06#8, 0x0A#8, 0x0E#8, 0x12#8]

/-- The values `NBYTES` takes: 0 after reset (R28), 4 to 16 afterwards (10_state.md R13). -/
def nbytesLegal (n : BitVec 5) : Bool := n.toNat == 0 || (decide (4 ≤ n.toNat) && decide (n.toNat ≤ 16))

/-- The invariant of the machine. The last part: what a busy block serves at once is never held (70_reset_and_hazards.md
R184). -/
abbrev State.Inv (s : State) : Prop :=
  statusLegal s.status = true ∧ nbytesLegal s.nbytes = true ∧ Memory.wf s = true ∧
    ∀ a ∈ s.held, servedWhileBusy a = false

/-- The columns of the footprint table (20_memory.md R41). -/
inductive Component where
  | q
  | ctrlb
  | nbytes
  | ecount
  | region (X : RegionName)
deriving DecidableEq, Repr

/-- The entries `r` of the footprint table (R41). -/
def readsComponent : Instr → Component → Bool
  | .qenc, c => c = .q
  | .qdec, c => c ∈ [.ctrlb, .region .pay]
  | .denc _ _, c => c = .q
  | .ddec _, c => c = .q
  | .comp _, c => c = .region .seq
  | .decomp _, c => c ∈ [.ecount, .region .ctl, .region .pay]
  | .ser, c => c ∈ [.ecount, .region .ctl, .region .pay]
  | .deser, c => c = .region .env
  | .compenv _, c => c = .region .seq
  | .decompenv _, c => c = .region .env

/-- The entries `w` of the footprint table (R41). -/
def writesComponent : Instr → Component → Bool
  | .qenc, c => c ∈ [.ctrlb, .nbytes, .region .pay]
  | .qdec, c => c ∈ [.q, .nbytes]
  | .denc _ _, c => c = .q
  | .ddec _, c => c = .q
  | .comp _, c => c ∈ [.ecount, .region .ctl, .region .pay]
  | .decomp _, c => c = .region .seq
  | .ser, c => c = .region .env
  | .deser, c => c ∈ [.ecount, .region .ctl, .region .pay]
  | .compenv _, c => c ∈ [.ecount, .region .ctl, .region .pay, .region .env]
  | .decompenv _, c => c ∈ [.ecount, .region .seq, .region .ctl, .region .pay]

/-- Two states hold the same value in a component: the register, or the region's value (10_state.md R20). -/
def SameValue (s t : State) : Component → Prop
  | .q => s.q = t.q
  | .ctrlb => s.ctrlb = t.ctrlb
  | .nbytes => s.nbytes = t.nbytes
  | .ecount => s.ecount = t.ecount
  | .region .seq => s.seqVal = t.seqVal
  | .region .ctl => s.ctlVal = t.ctlVal
  | .region .pay => s.payVal = t.payVal
  | .region .env => s.envVal = t.envVal

/-- What a command leaves as it was in a component it does not write: the register; the region's length and every element
of its storage, one by one. -/
def Untouched (s t : State) : Component → Prop
  | .q => t.q = s.q
  | .ctrlb => t.ctrlb = s.ctrlb
  | .nbytes => t.nbytes = s.nbytes
  | .ecount => t.ecount = s.ecount
  | .region X => t.regionLen X = s.regionLen X ∧ ∀ i, t.readElem X i = s.readElem X i

/-- What no command writes, whichever it is: the configuration, the latch `CMDR`, and the interface's lists. -/
def SameOutside (s t : State) : Prop :=
  t.cfg = s.cfg ∧ t.cmdr = s.cmdr ∧ t.held = s.held ∧ t.inbox = s.inbox ∧ t.replies = s.replies ∧ t.draws = s.draws

/-- The register a number names can be written by the host and holds what is written (10_state.md R18). -/
def hostWritable : Reg → Bool
  | .cmd => false
  | .status => false
  | .cfg => false
  | .ecount => true
  | .q0 => true
  | .q1 => true
  | .q2 => true
  | .q3 => true
  | .ctrlb => true
  | .nbytes => false
  | .len _ => true
  | .reserved => false

/-- A value the host may write to a register: within the register's width, a length within the capacity (R18). -/
def writeAllowed (c : Config) (v : Nat) : Reg → Bool
  | .cmd => decide (v < 256)
  | .status => true
  | .cfg => true
  | .ecount => decide (v < 4294967296)
  | .q0 => decide (v < 4294967296)
  | .q1 => decide (v < 4294967296)
  | .q2 => decide (v < 4294967296)
  | .q3 => decide (v < 4294967296)
  | .ctrlb => decide (v < 256)
  | .nbytes => true
  | .len X => fits (c.cap X) v
  | .reserved => true

/-- A step goes on: it neither faults nor is refused. -/
def Continues (s : State) : Prop := ∃ t, step s = .next t

end Sys2Proof.Machine
end

