-- ==== Sys2Proof/Certificates/Slice0/Obligations.lean ====
section
/-! DEFINITION. The statements for the provers, from the numbered rules of spec/. Every statement about a state holds for
every configuration (`CTRL_ORDER` and capacities are fields of the state) and for every free value. -/

open Sys2Proof Sys2Proof.Machine

/-! ### Encodings (30_encoding.md) -/

/-- R65, R66, R70: the decoder reads back every well-formed command from its byte, with every operand value the byte
admits, and a byte that decodes is the byte of the command it decodes to. -/
def Obligations.DecodeEncodeRoundTrip : Prop :=
  (∀ i : Instr, i.wellFormed = true → decode (encode i) = .ok i) ∧
  (∀ (c : Byte) (i : Instr), decode c = .ok i → i.wellFormed = true ∧ encode i = c)

/-- R67: the 22 legal bytes, as the rule lists them; R66: a byte `c` is a certain row's command if and only if
`c & mask = match` for that row. -/
def Obligations.LegalCommandBytes : Prop :=
  (∀ c : Byte, (∃ i, decode c = .ok i) ↔
    c ∈ [0x01#8, 0x02#8, 0x07#8, 0x08#8,
         0x04#8, 0x14#8, 0x05#8, 0x15#8, 0x06#8, 0x16#8, 0x09#8, 0x19#8, 0x0A#8, 0x1A#8,
         0x03#8, 0x13#8, 0x23#8, 0x33#8, 0x43#8, 0x53#8, 0x63#8, 0x73#8]) ∧
  (∀ (c : Byte) (i : Instr), (∃ j, maskMatch j = maskMatch i ∧ decode c = .ok j) ↔
    c &&& (maskMatch i).1 = (maskMatch i).2)

/-- R66, V-CMD: words written out from the encoding table, one or two per command, decode to their commands; R68: bytes the
rule names are none. -/
def Obligations.TableWordsDecode : Prop :=
  decode 0b00000001#8 = .ok .qenc ∧ decode 0b00000010#8 = .ok .qdec ∧
  decode 0b00110011#8 = .ok (.denc true 2) ∧ decode 0b01100011#8 = .ok (.denc false 4) ∧
  decode 0b00010100#8 = .ok (.ddec true) ∧ decode 0b00000101#8 = .ok (.comp false) ∧
  decode 0b00010110#8 = .ok (.decomp true) ∧ decode 0b00000111#8 = .ok .ser ∧
  decode 0b00001000#8 = .ok .deser ∧ decode 0b00011001#8 = .ok (.compenv true) ∧
  decode 0b00001010#8 = .ok (.decompenv false) ∧
  decode 0b00000000#8 = .error .noSuchOperation ∧ decode 0b00001011#8 = .error .noSuchOperation ∧
  decode 0b00010001#8 = .error .unusedDiff ∧ decode 0b00100001#8 = .error .unusedRm1 ∧
  decode 0b10000001#8 = .error .reservedBit

/-- R61, R62: the position of all four slots under both orders, `MSF` with slot 0 at the top and `LSF` with slot 0 at the
bottom; the four fields of a control byte and the byte made of four fields are inverse to each other under both orders; a field
is the slot's byte count less one (R61), the quad's length their sum, 4 to 16, and it does not depend on the order (R188). -/
def Obligations.ControlByteFields : Prop :=
  (∀ (o : CtrlOrder) (b0 b1 b2 b3 : BitVec 2),
    field o (mkctrl o b0 b1 b2 b3) 0 = b0 ∧ field o (mkctrl o b0 b1 b2 b3) 1 = b1 ∧
    field o (mkctrl o b0 b1 b2 b3) 2 = b2 ∧ field o (mkctrl o b0 b1 b2 b3) 3 = b3) ∧
  (∀ (o : CtrlOrder) (c : Byte), mkctrl o (field o c 0) (field o c 1) (field o c 2) (field o c 3) = c) ∧
  (∀ (c : Byte) (i : Fin 4),
    (field .msf c i).toNat = c.toNat / 4 ^ (3 - i.val) % 4 ∧ (field .lsf c i).toNat = c.toNat / 4 ^ i.val % 4) ∧
  (∀ (o : CtrlOrder) (c : Byte), (∀ i, slotLen o c i = (field o c i).toNat + 1) ∧
    qlen o c = slotLen o c 0 + slotLen o c 1 + slotLen o c 2 + slotLen o c 3 ∧ 4 ≤ qlen o c ∧ qlen o c ≤ 16) ∧
  (∀ c : Byte, qlen .msf c = qlen .lsf c)

/-- R71: `ceil4` of a 32-bit count is its upper 30 bits, plus one if the lower two are not zero, on natural numbers; it
never exceeds `2^30`; the rule's examples. -/
def Obligations.CeilFourOfACount : Prop :=
  (∀ n : Word, ceil4 n.toNat = (n.extractLsb' 2 30).toNat + (if n.extractLsb' 0 2 = 0#2 then 0 else 1) ∧
    ceil4 n.toNat ≤ 2 ^ 30) ∧
  ceil4 0 = 0 ∧ ceil4 1 = 1 ∧ ceil4 4 = 1 ∧ ceil4 5 = 2 ∧ ceil4 9 = 3 ∧
  ceil4 0xFFFFFFFC = 0x3FFFFFFF ∧ ceil4 0xFFFFFFFD = 0x40000000 ∧ ceil4 0xFFFFFFFF = 0x40000000

/-- R8: `klen(v)` is the least `k` of 1 to 4 with `v < 256^k`, and `klen(0) = 1`. -/
def Obligations.KlenIsTheMinimalByteCount : Prop :=
  (∀ v : Word, 1 ≤ klen v ∧ klen v ≤ 4 ∧ v.toNat < 256 ^ klen v ∧
    ∀ k, 1 ≤ k → k ≤ 4 → v.toNat < 256 ^ k → klen v ≤ k) ∧
  klen 0#32 = 1

/-- R42, R43: a value stored with `k` bytes and read with the same `k` comes back unchanged if it is below `256^k`, and the
bytes lie least significant first. -/
def Obligations.StoredValueComesBack : Prop :=
  ∀ (v : Word) (k : Nat), k ≤ 4 →
    (leBytes v k).length = k ∧
    (∀ j, j < k → (leBytes v k)[j]? = some (BitVec.ofNat 8 (v.toNat / 256 ^ j))) ∧
    (v.toNat < 256 ^ k → leWord (leBytes v k) = v)

/-! ### Quad codec (40_quad_codec.md) -/

/-- R87: decoding what the encoder made of a quad, followed by any bytes, gives the quad back and consumes exactly the
encoder's bytes, under the same `CTRL_ORDER`. -/
def Obligations.QuadRoundTrip : Prop :=
  ∀ (o : CtrlOrder) (v : Quad) (t : List Byte),
    quadDecode o ((quadEncode o v).1 ++ t) (quadEncode o v).2 = some (v, (quadEncode o v).1.length)

/-- R81, R83: the control byte declares for each slot the minimal byte count, the data length is what the control byte
declares, 4 to 16, and the data bytes do not depend on `CTRL_ORDER` (R62). -/
def Obligations.QuadEncodingIsMinimal : Prop :=
  ∀ (o : CtrlOrder) (v : Quad),
    (∀ i, slotLen o (quadEncode o v).2 i = klen (v.slot i)) ∧
    (quadEncode o v).1.length = qlen o (quadEncode o v).2 ∧
    4 ≤ (quadEncode o v).1.length ∧ (quadEncode o v).1.length ≤ 16 ∧
    (∀ o' : CtrlOrder, (quadEncode o' v).1 = (quadEncode o v).1)

/-- R84, R85: decoding fails exactly when fewer than `qlen` bytes are there, and only the first `qlen` bytes influence it. -/
def Obligations.QuadDecodeReadsOnlyItsBytes : Prop :=
  ∀ (o : CtrlOrder) (c : Byte) (s t : List Byte),
    (quadDecode o s c = none ↔ s.length < qlen o c) ∧
    (qlen o c ≤ s.length → quadDecode o (s ++ t) c = quadDecode o s c ∧
      quadDecode o (s.take (qlen o c)) c = quadDecode o s c)

/-- R82: `QENC` on a quad whose bytes fit: `PAY` becomes the four values' minimal little-endian bytes, slot 0 first, `CTRLB`
declares their byte counts, `NBYTES` their number; nothing else changes but `STATUS` (done, no error). -/
def Obligations.QencResult : Prop :=
  ∀ s : State, fits (s.cfg.cap .pay) (klen s.q.v0 + klen s.q.v1 + klen s.q.v2 + klen s.q.v3) = true →
    ∃ t, exec .qenc s = .next t ∧
      t.payVal = s.q.toList.flatMap (fun v => leBytes v (klen v)) ∧
      (∀ i, slotLen s.cfg.ctrlOrder t.ctrlb i = klen (s.q.slot i)) ∧
      t.nbytes.toNat = klen s.q.v0 + klen s.q.v1 + klen s.q.v2 + klen s.q.v3 ∧
      t = { s with pay := t.pay, ctrlb := t.ctrlb, nbytes := t.nbytes, status := 0x02#8 }

/-- R86: `QDEC` when `PAY` holds at least `qlen(CTRLB)` bytes: each slot takes the bytes after those of the slots before it,
zero-extended, little-endian; `NBYTES` is `qlen`; nothing else changes but `STATUS`. -/
def Obligations.QdecResult : Prop :=
  ∀ (s : State) (k : Fin 4 → Nat), (∀ i, k i = slotLen s.cfg.ctrlOrder s.ctrlb i) → k 0 + k 1 + k 2 + k 3 ≤ s.pay.len →
    ∃ t, exec .qdec s = .next t ∧
      t.q.v0.toNat = leValue (s.payVal.take (k 0)) ∧
      t.q.v1.toNat = leValue ((s.payVal.drop (k 0)).take (k 1)) ∧
      t.q.v2.toNat = leValue ((s.payVal.drop (k 0 + k 1)).take (k 2)) ∧
      t.q.v3.toNat = leValue ((s.payVal.drop (k 0 + k 1 + k 2)).take (k 3)) ∧
      t.nbytes.toNat = k 0 + k 1 + k 2 + k 3 ∧
      t = { s with q := t.q, nbytes := t.nbytes, status := 0x02#8 }

/-! ### Delta transform (41_delta.md) -/

/-- R101: `DENC diff, r`, with `p` the padded quad (slots below `r` as they are, slots from `r` on the value of slot `r − 1`): with
`diff = 1` slot 0 stays and each later slot becomes `p i − p (i − 1)` modulo `2^32`, all from the old `Q`; with `diff = 0` `Q` is
left as it is, whatever `r` is. Nothing else changes but `STATUS`. -/
def Obligations.DencResult : Prop :=
  ∀ (s : State) (r : Nat) (p : Fin 4 → Word), 1 ≤ r → r ≤ 4 →
    (∀ i : Fin 4, i.val < r → p i = s.q.slot i) → (∀ i k : Fin 4, r ≤ i.val → k.val = r - 1 → p i = s.q.slot k) →
    exec (.denc true r) s = .next { s with q := ⟨p 0, p 1 - p 0, p 2 - p 1, p 3 - p 2⟩, status := 0x02#8 } ∧
    exec (.denc false r) s = .next { s with status := 0x02#8 }

/-- R104: `DDEC diff` with `diff = 1`: slot `i` becomes the sum of the old slots 0 to `i`, modulo `2^32`; with `diff = 0` `Q`
is left as it is. Nothing else changes but `STATUS`. -/
def Obligations.DdecResult : Prop :=
  ∀ s : State,
    exec (.ddec true) s = .next { s with
      q := ⟨s.q.v0, s.q.v0 + s.q.v1, s.q.v0 + s.q.v1 + s.q.v2, s.q.v0 + s.q.v1 + s.q.v2 + s.q.v3⟩, status := 0x02#8 } ∧
    exec (.ddec false) s = .next { s with status := 0x02#8 }

/-- R105: the inverse transform undoes the forward one on every quad, sorted or not; for a count `r < 4` it gives the padded
quad, whose first `r` slots are the original's. -/
def Obligations.DeltaInverseUndoesForward : Prop :=
  (∀ v : Quad, deltaInv (deltaFwd v 4) = v) ∧
  (∀ (v : Quad) (r : Nat), deltaInv (deltaFwd v r) = padQuad v r) ∧
  (∀ (v : Quad) (r : Nat) (i : Fin 4), i.val < r → (padQuad v r).slot i = v.slot i)

/-- R100, R102: a slot from `r` on takes the value of slot `r − 1`; padding twice is padding once; the delta of a padding
slot is 0. -/
def Obligations.PaddingRepeatsTheLastValue : Prop :=
  ∀ (v : Quad) (r : Nat), 1 ≤ r → r ≤ 4 →
    (∀ i k : Fin 4, r ≤ i.val → k.val = r - 1 → (padQuad v r).slot i = v.slot k) ∧
    padQuad (padQuad v r) r = padQuad v r ∧
    (∀ i : Fin 4, r ≤ i.val → (deltaFwd v r).slot i = 0#32)

/-- R192: a decrease by `x > 0` between neighbours of one quad, slots 0 and 1, 1 and 2 or 2 and 3, gives the wrapped delta
`2^32 − x` in the later slot, which takes 4 bytes whenever `x ≤ 2^32 − 2^24`. -/
def Obligations.DecreaseGivesAWrappedDelta : Prop :=
  ∀ (v : Quad) (x : Nat) (i j : Fin 4), j.val = i.val + 1 → 0 < x → (v.slot i).toNat = (v.slot j).toNat + x →
    ((deltaFwd v 4).slot j).toNat = 2 ^ 32 - x ∧ (x ≤ 2 ^ 32 - 2 ^ 24 → klen ((deltaFwd v 4).slot j) = 4)

/-! ### Stream (42_stream.md) -/

/-- R110: a sequence of `N` values splits into `ceil4(N)` quads; quad `j` has `r = min(4, N − 4j)` real values, the elements
from `4j` on, and its slots from `r` on repeat the last of them. -/
def Obligations.SplitIntoPaddedQuads : Prop :=
  ∀ s : List Word, (splitQuads s).length = ceil4 s.length ∧
    ∀ j, j < ceil4 s.length → ∃ q, (splitQuads s)[j]? = some (q, min 4 (s.length - 4 * j)) ∧
      ∀ i : Fin 4, s[4 * j + min i.val (min 4 (s.length - 4 * j) - 1)]? = some (q.slot i)

/-- R113: the number of control bytes is `ceil4` of the length; the payload's length is the sum of `qlen` over the control
bytes and lies between `4C` and `16C`. The payload itself is the same under both `CTRL_ORDER`s (R62). -/
def Obligations.CompressedLengths : Prop :=
  ∀ (o : CtrlOrder) (diff : Bool) (s : List Word),
    (compress o diff s).2.length = ceil4 s.length ∧
    (compress o diff s).1.length = (((compress o diff s).2).map (qlen o)).sum ∧
    4 * ceil4 s.length ≤ (compress o diff s).1.length ∧ (compress o diff s).1.length ≤ 16 * ceil4 s.length ∧
    (∀ o' : CtrlOrder, (compress o' diff s).1 = (compress o diff s).1)

/-- R113, R118: the quads are compressed one by one: at a boundary of whole quads the outputs are the concatenation of the
outputs of the two parts. -/
def Obligations.QuadsCompressIndependently : Prop :=
  ∀ (o : CtrlOrder) (diff : Bool) (a b : List Word), a.length % 4 = 0 →
    compress o diff (a ++ b) =
      ((compress o diff a).1 ++ (compress o diff b).1, (compress o diff a).2 ++ (compress o diff b).2)

/-- R119: `Decompress(Compress(s, diff), diff) = s` for every sequence, sorted or not, under the same `CTRL_ORDER`; bytes
after the payload change nothing (R115). -/
def Obligations.StreamRoundTrip : Prop :=
  ∀ (o : CtrlOrder) (diff : Bool) (s : List Word) (extra : List Byte),
    decompress o diff ((compress o diff s).1 ++ extra) (compress o diff s).2 s.length = .ok s

/-- R112: `COMP diff` when the outputs fit: `PAY` and `CTL` become the concatenated data and control bytes of the quads that
R110 splits the sequence into, transformed first if `diff`; `ECOUNT` becomes the sequence's length. Nothing else changes but
`STATUS`. The premise on the length holds in every state the invariant admits (R21, D30). -/
def Obligations.CompResult : Prop :=
  ∀ (s : State) (diff : Bool), s.seq.len < 2 ^ 32 →
    fits (s.cfg.cap .pay) (compress s.cfg.ctrlOrder diff s.seqVal).1.length = true →
    fits (s.cfg.cap .ctl) (ceil4 s.seq.len) = true →
    ∃ t, exec (.comp diff) s = .next t ∧
      (t.payVal = (splitQuads s.seqVal).flatMap
        (fun tr => (quadEncode s.cfg.ctrlOrder (if diff then deltaFwd tr.1 tr.2 else tr.1)).1)) ∧
      (t.ctlVal = (splitQuads s.seqVal).map
        (fun tr => (quadEncode s.cfg.ctrlOrder (if diff then deltaFwd tr.1 tr.2 else tr.1)).2)) ∧
      t.ecount.toNat = s.seq.len ∧
      t = { s with pay := t.pay, ctl := t.ctl, ecount := t.ecount, status := 0x02#8 }

/-- R116: `DECOMP diff` when the count agrees, no quad starves and the capacity suffices: `SEQ` becomes `ECOUNT` values, the
value `4j + i` being slot `i` of quad `j`, decoded at the payload cursor of R51, with the inverse transform if `diff`. Nothing
else changes but `STATUS`. -/
def Obligations.DecompResult : Prop :=
  ∀ (s : State) (diff : Bool), s.ctl.len = ceil4 s.ecount.toNat →
    ¬ Starves s.cfg.ctrlOrder s.payVal s.ctlVal → fits (s.cfg.cap .seq) s.ecount.toNat = true →
    ∃ t, exec (.decomp diff) s = .next t ∧
      t.seq.len = s.ecount.toNat ∧
      (∀ (j : Nat) (i : Fin 4), 4 * j + i.val < s.ecount.toNat →
        ∃ v n, quadDecode s.cfg.ctrlOrder (s.payVal.drop (payCursor s.cfg.ctrlOrder s.ctlVal j)) (s.ctlVal.getD j 0#8) = some (v, n) ∧
          t.seqVal[4 * j + i.val]? = some ((if diff then deltaInv v else v).slot i)) ∧
      t = { s with seq := t.seq, status := 0x02#8 }

/-- R119 in command terms: after `COMP diff`, `DECOMP diff` in a state with the `PAY`, `CTL`, `ECOUNT` it left, the same
configuration and the capacity for the sequence succeeds and makes `SEQ` equal to what it was. -/
def Obligations.DecompRestoresWhatCompRead : Prop :=
  ∀ (s t u : State) (diff : Bool), s.seq.len ≤ s.cfg.seqCap.val →
    exec (.comp diff) s = .next t → t.errPin = 0#3 →
    u.cfg = s.cfg → u.payVal = t.payVal → u.ctlVal = t.ctlVal → u.ecount = t.ecount →
    ∃ w, exec (.decomp diff) u = .next w ∧ w.errPin = 0#3 ∧ w.seqVal = s.seqVal

/-- R117, R189: `DECOMP` accepts every count with the same `ceil4`, and the result's length is the count supplied: with
another such count in `ECOUNT` a command that succeeded succeeds again, and the two results agree as far as both reach. -/
def Obligations.CountTrustedWithinItsQuad : Prop :=
  ∀ (s t : State) (diff : Bool) (n : Word), exec (.decomp diff) s = .next t → t.errPin = 0#3 →
    ceil4 n.toNat = ceil4 s.ecount.toNat → fits (s.cfg.cap .seq) n.toNat = true →
    ∃ u, exec (.decomp diff) { s with ecount := n } = .next u ∧ u.errPin = 0#3 ∧ u.seq.len = n.toNat ∧
      ∀ e, e < n.toNat → e < s.ecount.toNat → u.seqVal[e]? = t.seqVal[e]?

/-- R187: the `diff` flag is not recorded: decoding with the other value ends with the same error code, so a mismatch is never
noticed. -/
def Obligations.DiffMismatchIsNotNoticed : Prop :=
  ∀ (s t u : State), exec (.decomp true) s = .next t → exec (.decomp false) s = .next u → t.errPin = u.errPin

/-! ### Envelope (43_envelope.md) -/

/-- R134: deserializing what was serialized gives the three parts back if and only if the number of control bytes is `ceil4` of
the count; and serializing what was deserialized gives the envelope back. -/
def Obligations.FramingInverse : Prop :=
  (∀ (pay ctl : List Byte) (n : Word),
    deserialize (serialize pay ctl n) = some (pay, ctl, n) ↔ ctl.length = ceil4 n.toNat) ∧
  (∀ (env pay ctl : List Byte) (n : Word), deserialize env = some (pay, ctl, n) → serialize pay ctl n = env)

/-- R131: `SER` when the envelope fits: `ENV` becomes the four bytes of `ECOUNT`, least significant first, then the control
bytes, then the payload; no consistency check (D26). Nothing else changes but `STATUS`. -/
def Obligations.SerResult : Prop :=
  ∀ s : State, fits (s.cfg.cap .env) (4 + s.ctl.len + s.pay.len) = true →
    ∃ t, exec .ser s = .next t ∧
      t.envVal = [s.ecount.extractLsb' 0 8, s.ecount.extractLsb' 8 8, s.ecount.extractLsb' 16 8, s.ecount.extractLsb' 24 8] ++
        s.ctlVal ++ s.payVal ∧
      t = { s with env := t.env, status := 0x02#8 }

/-- R133: `DESER` on an envelope long enough whose parts fit: the count from the first four bytes, then `ceil4` of it control
bytes, and the rest is payload. Nothing else changes but `STATUS`. -/
def Obligations.DeserResult : Prop :=
  ∀ s : State, 4 + ceil4 (leValue (s.envVal.take 4)) ≤ s.env.len →
    fits (s.cfg.cap .ctl) (ceil4 (leValue (s.envVal.take 4))) = true →
    fits (s.cfg.cap .pay) (s.env.len - 4 - ceil4 (leValue (s.envVal.take 4))) = true →
    ∃ t, exec .deser s = .next t ∧
      t.ecount.toNat = leValue (s.envVal.take 4) ∧
      t.ctl.len = ceil4 t.ecount.toNat ∧
      s.envVal.drop 4 = t.ctlVal ++ t.payVal ∧
      t = { s with ecount := t.ecount, ctl := t.ctl, pay := t.pay, status := 0x02#8 }

/-- R135, R136: `COMPENV diff` is `COMP diff` and then `SER`: the second runs only if the first ended without error, on the
state the first left; a first stage that fails ends the command with its error, and empties `ENV` too. -/
def Obligations.CompenvIsCompThenSer : Prop :=
  ∀ (s t : State) (diff : Bool), exec (.comp diff) s = .next t →
    (t.errPin = 0#3 → exec (.compenv diff) s = exec .ser t) ∧
    (t.errPin ≠ 0#3 → ∃ u, exec (.compenv diff) s = .next u ∧ u.envVal = [] ∧ u = { t with env := u.env })

/-- R135, R137: `DECOMPENV diff` is `DESER` and then `DECOMP diff`, likewise; a failing first stage empties `SEQ` too. -/
def Obligations.DecompenvIsDeserThenDecomp : Prop :=
  ∀ (s t : State) (diff : Bool), exec .deser s = .next t →
    (t.errPin = 0#3 → exec (.decompenv diff) s = exec (.decomp diff) t) ∧
    (t.errPin ≠ 0#3 → ∃ u, exec (.decompenv diff) s = .next u ∧ u.seqVal = [] ∧ u = { t with seq := u.seq })

/-- R136: `COMPENV diff` when everything fits: `ENV` is the envelope of the compressed sequence, and `PAY`, `CTL`, `ECOUNT` are
what `COMP` leaves. Nothing else changes but `STATUS`. -/
def Obligations.CompenvResult : Prop :=
  ∀ (s : State) (diff : Bool), s.seq.len < 2 ^ 32 →
    fits (s.cfg.cap .pay) (compress s.cfg.ctrlOrder diff s.seqVal).1.length = true →
    fits (s.cfg.cap .ctl) (ceil4 s.seq.len) = true →
    fits (s.cfg.cap .env) (4 + ceil4 s.seq.len + (compress s.cfg.ctrlOrder diff s.seqVal).1.length) = true →
    ∃ t, exec (.compenv diff) s = .next t ∧
      t.envVal = leBytes (BitVec.ofNat 32 s.seq.len) 4 ++ t.ctlVal ++ t.payVal ∧
      (t.payVal, t.ctlVal) = compress s.cfg.ctrlOrder diff s.seqVal ∧
      t.ecount.toNat = s.seq.len ∧
      t = { s with pay := t.pay, ctl := t.ctl, env := t.env, ecount := t.ecount, status := 0x02#8 }

/-- R137: `DECOMPENV diff` on an envelope that parses and decompresses, with capacity for all three outputs: `SEQ` becomes the
decompressed sequence and `ECOUNT`, `CTL`, `PAY` the envelope's parts. Nothing else changes but `STATUS`. -/
def Obligations.DecompenvResult : Prop :=
  ∀ (s : State) (diff : Bool) (pay ctl : List Byte) (n : Word) (out : List Word),
    deserialize s.envVal = some (pay, ctl, n) → decompress s.cfg.ctrlOrder diff pay ctl n.toNat = .ok out →
    fits (s.cfg.cap .ctl) ctl.length = true → fits (s.cfg.cap .pay) pay.length = true →
    fits (s.cfg.cap .seq) n.toNat = true →
    ∃ t, exec (.decompenv diff) s = .next t ∧
      t.seqVal = out ∧ t.seq.len = n.toNat ∧ t.ctlVal = ctl ∧ t.payVal = pay ∧ t.ecount = n ∧
      t = { s with seq := t.seq, ctl := t.ctl, pay := t.pay, ecount := t.ecount, status := 0x02#8 }

/-- R138, envelope round trip: after `COMPENV diff` succeeds, `DECOMPENV diff` in any state with the same configuration and the
same `ENV` succeeds and makes `SEQ` equal to what it was. -/
def Obligations.EnvelopeRoundTrip : Prop :=
  ∀ (s t u : State) (diff : Bool), s.seq.len ≤ s.cfg.seqCap.val →
    exec (.compenv diff) s = .next t → t.errPin = 0#3 → u.cfg = s.cfg → u.envVal = t.envVal →
    ∃ w, exec (.decompenv diff) u = .next w ∧ w.errPin = 0#3 ∧ w.seqVal = s.seqVal

/-- R138, corruption handling: every proper prefix of an envelope made by `COMPENV` makes `DECOMPENV` raise `TruncatedInput`
and leave `SEQ` empty, never a partial sequence. -/
def Obligations.TruncatedEnvelopeIsRejected : Prop :=
  ∀ (s t u : State) (diff : Bool) (n : Nat), s.seq.len ≤ s.cfg.seqCap.val →
    exec (.compenv diff) s = .next t → t.errPin = 0#3 → u.cfg = s.cfg →
    n < t.envVal.length → u.envVal = t.envVal.take n →
    ∃ w, exec (.decompenv diff) u = .next w ∧ w.errPin = 1#3 ∧ w.seqVal = []

/-! ### Errors (60_exceptions.md) -/

/-- R154, R194: every command, in every state, runs to its end: `busy` falls, `done` rises, `err` is one of the codes 0 to 4, the
other bits of `STATUS` are 0, and nothing outside the command's operands changes. -/
def Obligations.EveryCommandCompletes : Prop :=
  ∀ (i : Instr) (s : State), ∃ t, exec i s = .next t ∧
    t.busy = false ∧ t.donePin = true ∧ t.errPin.toNat ≤ 4 ∧ t.status.toNat = 2 + 4 * t.errPin.toNat ∧ SameOutside s t

/-- R152: `TruncatedInput`, its exact conditions: `QDEC` (a), `DECOMP` (b), `DESER` (c), and `DECOMPENV` by stages; `DECOMP`
reports it only if the count check has passed (R153, R159). -/
def Obligations.TruncatedInputExactly : Prop :=
  (∀ s t : State, exec .qdec s = .next t → (t.errPin = 1#3 ↔ s.pay.len < qlen s.cfg.ctrlOrder s.ctrlb)) ∧
  (∀ (s t : State) (diff : Bool), exec (.decomp diff) s = .next t →
    (t.errPin = 1#3 ↔ s.ctl.len = ceil4 s.ecount.toNat ∧ Starves s.cfg.ctrlOrder s.payVal s.ctlVal)) ∧
  (∀ s t : State, exec .deser s = .next t →
    (t.errPin = 1#3 ↔ s.env.len < 4 ∨ s.env.len < 4 + ceil4 (leValue (s.envVal.take 4)))) ∧
  (∀ (s t u : State) (diff : Bool), exec .deser s = .next t → exec (.decompenv diff) s = .next u →
    (u.errPin = 1#3 ↔ t.errPin = 1#3 ∨ (t.errPin = 0#3 ∧ Starves t.cfg.ctrlOrder t.payVal t.ctlVal)))

/-- R153: `ControlByteCountMismatch`, its exact condition, in either direction and whatever the payload is; no command other
than `DECOMP` raises it: not `DECOMPENV`, and not `SER`, which does not check it. -/
def Obligations.CountMismatchExactly : Prop :=
  (∀ (s t : State) (diff : Bool), exec (.decomp diff) s = .next t → (t.errPin = 2#3 ↔ s.ctl.len ≠ ceil4 s.ecount.toNat)) ∧
  (∀ (i : Instr) (s t : State), (∀ diff, i ≠ .decomp diff) → exec i s = .next t → t.errPin ≠ 2#3)

/-- R158: `RegionOverflow`, its exact conditions, none of which masks another error of the same stage; an output does not fit
exactly when it is longer than a bounded capacity; a composite command has the conditions of its stages; `DENC` and `DDEC` cannot
fail (R151), and `QDEC` never raises it. -/
def Obligations.RegionOverflowExactly : Prop :=
  (∀ c n : Nat, (fits (some c) n = false ↔ c < n) ∧ fits none n = true) ∧
  (∀ s t : State, exec .qenc s = .next t →
    (t.errPin = 4#3 ↔ fits s.cfg.payCap (klen s.q.v0 + klen s.q.v1 + klen s.q.v2 + klen s.q.v3) = false)) ∧
  (∀ (s t : State) (diff : Bool), exec (.comp diff) s = .next t →
    (t.errPin = 4#3 ↔ fits s.cfg.payCap (compress s.cfg.ctrlOrder diff s.seqVal).1.length = false ∨
      fits s.cfg.ctlCap (ceil4 s.seq.len) = false)) ∧
  (∀ (s t : State) (diff : Bool), exec (.decomp diff) s = .next t →
    (t.errPin = 4#3 ↔ s.ctl.len = ceil4 s.ecount.toNat ∧ ¬ Starves s.cfg.ctrlOrder s.payVal s.ctlVal ∧
      s.cfg.seqCap.val < s.ecount.toNat)) ∧
  (∀ s t : State, exec .ser s = .next t →
    (t.errPin = 4#3 ↔ fits s.cfg.envCap (4 + s.ctl.len + s.pay.len) = false)) ∧
  (∀ s t : State, exec .deser s = .next t →
    (t.errPin = 4#3 ↔ 4 + ceil4 (leValue (s.envVal.take 4)) ≤ s.env.len ∧
      (fits s.cfg.ctlCap (ceil4 (leValue (s.envVal.take 4))) = false ∨
        fits s.cfg.payCap (s.env.len - 4 - ceil4 (leValue (s.envVal.take 4))) = false))) ∧
  (∀ (s t u : State) (diff : Bool), exec (.comp diff) s = .next t → exec (.compenv diff) s = .next u →
    (u.errPin = 4#3 ↔ t.errPin = 4#3 ∨ (t.errPin = 0#3 ∧ fits s.cfg.envCap (4 + t.ctl.len + t.pay.len) = false))) ∧
  (∀ (s t u : State) (diff : Bool), exec .deser s = .next t → exec (.decompenv diff) s = .next u →
    (u.errPin = 4#3 ↔ t.errPin = 4#3 ∨ (t.errPin = 0#3 ∧ ¬ Starves t.cfg.ctrlOrder t.payVal t.ctlVal ∧
      s.cfg.seqCap.val < t.ecount.toNat))) ∧
  (∀ (s t : State) (diff : Bool) (r : Nat), exec (.denc diff r) s = .next t ∨ exec (.ddec diff) s = .next t → t.errPin = 0#3) ∧
  (∀ s t : State, exec .qdec s = .next t → t.errPin ≠ 4#3)

/-- R155: what a failing command leaves behind, row by row: its output regions empty, its output registers unchanged. -/
def Obligations.NoOutputOnFailure : Prop :=
  (∀ s t : State, exec .qenc s = .next t → t.errPin ≠ 0#3 →
    t.payVal = [] ∧ t = { s with pay := t.pay, status := t.status }) ∧
  (∀ s t : State, exec .qdec s = .next t → t.errPin ≠ 0#3 → t = { s with status := t.status }) ∧
  (∀ (s t : State) (diff : Bool), exec (.comp diff) s = .next t → t.errPin ≠ 0#3 →
    t.payVal = [] ∧ t.ctlVal = [] ∧ t = { s with pay := t.pay, ctl := t.ctl, status := t.status }) ∧
  (∀ (s t : State) (diff : Bool), exec (.decomp diff) s = .next t → t.errPin ≠ 0#3 →
    t.seqVal = [] ∧ t = { s with seq := t.seq, status := t.status }) ∧
  (∀ s t : State, exec .ser s = .next t → t.errPin ≠ 0#3 →
    t.envVal = [] ∧ t = { s with env := t.env, status := t.status }) ∧
  (∀ s t : State, exec .deser s = .next t → t.errPin ≠ 0#3 →
    t.ctlVal = [] ∧ t.payVal = [] ∧ t = { s with ctl := t.ctl, pay := t.pay, status := t.status }) ∧
  (∀ (s t : State) (diff : Bool), exec (.compenv diff) s = .next t → t.errPin ≠ 0#3 → t.envVal = []) ∧
  (∀ (s t : State) (diff : Bool), exec (.decompenv diff) s = .next t → t.errPin ≠ 0#3 → t.seqVal = [])

/-- R157, R68: a byte that is no command goes through the same start and end as any other (R150, R154: busy, then done with
`err = 3`), and every register and region other than `STATUS` and `CMDR` is unchanged. The running block is given with both
things the interface may bring before it ends, time passing and nothing; that it ends at that step is log 1's DESIGN CHOICE, the
result is the rule's. -/
def Obligations.IllegalCommandTouchesNothing : Prop :=
  (∀ (s : State) (why : DecodeReject), s.busy = true → decode s.cmdr = .error why →
    (s.inbox = [] → step s = .next { s with status := 0x0E#8 }) ∧
    (∀ es, s.inbox = .elapse :: es → step s = .next { s with inbox := es, status := 0x0E#8 })) ∧
  (∀ (s : State) (c : Nat) (why : DecodeReject), s.busy = false → s.held = [] → c < 256 →
    decode (BitVec.ofNat 8 c) = .error why →
    (s.inbox = [.access (.regWrite 0x00 c)] →
      ∃ t, step s = .next t ∧ t.busy = true ∧ t.errPin = 0#3 ∧
        step t = .next { s with inbox := [], cmdr := BitVec.ofNat 8 c, status := 0x0E#8 }) ∧
    (∀ es, s.inbox = .access (.regWrite 0x00 c) :: .elapse :: es →
      ∃ t, step s = .next t ∧ t.busy = true ∧ t.errPin = 0#3 ∧
        step t = .next { s with inbox := es, cmdr := BitVec.ofNat 8 c, status := 0x0E#8 }))

/-- R150: an accepted write of a byte to `CMD` latches it, sets `busy` and clears `done` and `err`; nothing else changes. -/
def Obligations.AcceptedCommandStarts : Prop :=
  ∀ (s : State) (es : List HostEvent) (c : Nat), s.busy = false → s.held = [] →
    s.inbox = .access (.regWrite 0x00 c) :: es → c < 256 →
    step s = .next { s with inbox := es, cmdr := BitVec.ofNat 8 c, status := 0x01#8 }

/-- A step runs the decoded command: when the latched byte of a busy block decodes and time passes at the interface, or nothing
comes there, the step is `exec` of that command, the event consumed. WHEN the block moves (at these two, and at no access) is
the model's choice, log 1 (DESIGN CHOICE); that the whole command is one step is log 2 (DEDUCED); the spec states neither. -/
def Obligations.StepRunsTheDecodedCommand : Prop :=
  ∀ (s : State) (i : Instr), s.busy = true → decode s.cmdr = .ok i →
    (s.inbox = [] → step s = exec i s) ∧
    (∀ es, s.inbox = .elapse :: es → step s = exec i { s with inbox := es })

/-- The command word placed by `withFetchWord` is what the next step runs, in any state, with the rest of the host's moves
still to come (log 12). -/
def Obligations.FetchWordRunsNext : Prop :=
  ∀ (s : State) (w : Nat) (i : Instr), decode (BitVec.ofNat 8 w) = .ok i →
    step (s.withFetchWord 8 w) = exec i { s with cmdr := BitVec.ofNat 8 w, status := 0x01#8 }

/-- R160: the error state persists: from one step to the next `STATUS` changes only by the acceptance of a `CMD` write (idle to
busy), by the end of a command (busy to done) or by reset. -/
def Obligations.StatusChangesOnlyByTheseEvents : Prop :=
  ∀ s t : State, step s = .next t → t.status ≠ s.status →
    (s.busy = false ∧ t.status = 0x01#8 ∧ ∃ c, c < 256 ∧ t.cmdr = BitVec.ofNat 8 c ∧
      (s.held.head? = some (.regWrite 0x00 c) ∨ (s.held = [] ∧ s.inbox.head? = some (.access (.regWrite 0x00 c))))) ∨
    (s.busy = true ∧ t.busy = false ∧ t.donePin = true) ∨
    (t.status = 0x00#8 ∧ s.inbox.head? = some .reset)

/-! ### Host interface, busy rule, reset (10_state.md, 70_reset_and_hazards.md) -/

/-- R184: while busy, a read of `STATUS`, `CFG` or `CMD` is served (`CMD` reads 0, `STATUS` its word, `CFG` reads 0 under `MSF` and 1
under `LSF`, R17); every other access is held, in order, and changes nothing. Whatever comes at the interface, a busy block goes
on (R194). -/
def Obligations.BusyBlockHoldsAccesses : Prop :=
  (∀ s : State, s.busy = true → Continues s) ∧
  ∀ (s : State) (es : List HostEvent) (a : HostAccess), s.busy = true → s.inbox = .access a :: es →
    (a = .regRead 0x00 → step s = .next { s with inbox := es, replies := s.replies ++ [(a, 0)] }) ∧
    (a = .regRead 0x01 → step s = .next { s with inbox := es, replies := s.replies ++ [(a, s.status.toNat)] }) ∧
    (a = .regRead 0x02 → s.cfg.ctrlOrder = .msf → step s = .next { s with inbox := es, replies := s.replies ++ [(a, 0)] }) ∧
    (a = .regRead 0x02 → s.cfg.ctrlOrder = .lsf → step s = .next { s with inbox := es, replies := s.replies ++ [(a, 1)] }) ∧
    (a ≠ .regRead 0x00 → a ≠ .regRead 0x01 → a ≠ .regRead 0x02 →
      step s = .next { s with inbox := es, held := s.held ++ [a] })

/-- R184: when the block is idle again, the oldest held access takes effect before any other (unless a reset comes): the step is
that access performed; a held read of a register thus returns what the completed command left. With nothing held, an access
that arrives is performed; with nothing arriving the block waits (R171). The order of the held accesses and the idle step are
the model's reading (logs 9, 15). -/
def Obligations.IdleBlockPerformsAccesses : Prop :=
  ∀ s : State, s.busy = false →
    (∀ a as, s.held = a :: as →
      (s.inbox = [] → step s = perform a { s with held := as }) ∧
      (∀ b es, s.inbox = .access b :: es → step s = perform a { s with held := as }) ∧
      (∀ es, s.inbox = .elapse :: es → step s = perform a { s with held := as, inbox := es })) ∧
    (s.held = [] →
      (∀ a es, s.inbox = .access a :: es → step s = perform a { s with inbox := es }) ∧
      (s.inbox = [] → step s = .next s))

/-- R180, R181, R28: a reset, in any state, leaves the block idle with no error, every scalar register 0, every region empty
and the configuration as it was. -/
def Obligations.ResetInAnyState : Prop :=
  ∀ (s : State) (es : List HostEvent), s.inbox = .reset :: es →
    ∃ t, step s = .next t ∧ t.status = 0x00#8 ∧ t.cmdr = 0x00#8 ∧ t.ecount = 0#32 ∧ t.q = ⟨0#32, 0#32, 0#32, 0#32⟩ ∧
      t.ctrlb = 0x00#8 ∧ t.nbytes = 0#5 ∧ (∀ X, t.regionLen X = 0) ∧ t.cfg = s.cfg ∧ t.inbox = es

/-- R182: what each command yields straight after reset, in an instance with room for it. -/
def Obligations.CommandsStraightAfterReset : Prop :=
  ∀ (c : Config) (diff : Bool), fits c.payCap 4 = true → fits c.envCap 4 = true →
    (∃ t, exec (.comp diff) (State.resetWith c) = .next t ∧ t.errPin = 0#3 ∧ t.ecount = 0#32 ∧ t.payVal = [] ∧ t.ctlVal = []) ∧
    (∃ t, exec (.decomp diff) (State.resetWith c) = .next t ∧ t.errPin = 0#3 ∧ t.seqVal = []) ∧
    (∃ t, exec .ser (State.resetWith c) = .next t ∧ t.errPin = 0#3 ∧ t.envVal = [0#8, 0#8, 0#8, 0#8]) ∧
    (∃ t, exec .qenc (State.resetWith c) = .next t ∧ t.errPin = 0#3 ∧ t.ctrlb = 0#8 ∧ t.payVal = [0#8, 0#8, 0#8, 0#8] ∧ t.nbytes = 4#5) ∧
    (∃ t, exec .qdec (State.resetWith c) = .next t ∧ t.errPin = 1#3) ∧
    (∃ t, exec .deser (State.resetWith c) = .next t ∧ t.errPin = 1#3) ∧
    (∃ t, exec (.decompenv diff) (State.resetWith c) = .next t ∧ t.errPin = 1#3) ∧
    (∃ t, exec (.compenv diff) (State.resetWith c) = .next t ∧ t.errPin = 0#3 ∧ t.envVal = [0#8, 0#8, 0#8, 0#8])

/-- R18: a register the host can write holds what was written, for every value of its width (a length: every value its capacity
admits), and no other register and no region element changes; a write of `STATUS`, `CFG`, `NBYTES` or a reserved number is
ignored. The second part says the same by the numbers of R18's map, with the whole next state. That a write of a length keeps the
elements, those at or beyond it too, is log 5 (DEDUCED). -/
def Obligations.HostRegisterWrite : Prop :=
  (∀ (s : State) (n : Fin 64) (v : Nat), n ≠ 0x00 → writeAllowed s.cfg v (regOf n) = true →
    ∃ t, perform (.regWrite n v) s = .next t ∧
      (∀ m, regValue t (regOf m) = if m = n ∧ hostWritable (regOf n) = true then v else regValue s (regOf m)) ∧
      (∀ Y j, t.readElem Y j = s.readElem Y j) ∧
      (hostWritable (regOf n) = false → t = s)) ∧
  ∀ (s : State) (v : Nat),
    (v < 2 ^ 32 →
      perform (.regWrite 0x03 v) s = .next { s with ecount := BitVec.ofNat 32 v } ∧
      perform (.regWrite 0x04 v) s = .next { s with q := { s.q with v0 := BitVec.ofNat 32 v } } ∧
      perform (.regWrite 0x05 v) s = .next { s with q := { s.q with v1 := BitVec.ofNat 32 v } } ∧
      perform (.regWrite 0x06 v) s = .next { s with q := { s.q with v2 := BitVec.ofNat 32 v } } ∧
      perform (.regWrite 0x07 v) s = .next { s with q := { s.q with v3 := BitVec.ofNat 32 v } }) ∧
    (v < 256 → perform (.regWrite 0x08 v) s = .next { s with ctrlb := BitVec.ofNat 8 v }) ∧
    (v ≤ s.cfg.seqCap.val → perform (.regWrite 0x0A v) s = .next { s with seq := { s.seq with len := v } }) ∧
    ((∀ c, s.cfg.ctlCap = some c → v ≤ c) → perform (.regWrite 0x0B v) s = .next { s with ctl := { s.ctl with len := v } }) ∧
    ((∀ c, s.cfg.payCap = some c → v ≤ c) → perform (.regWrite 0x0C v) s = .next { s with pay := { s.pay with len := v } }) ∧
    ((∀ c, s.cfg.envCap = some c → v ≤ c) → perform (.regWrite 0x0D v) s = .next { s with env := { s.env with len := v } }) ∧
    (∀ n : Fin 64, n = 0x01 ∨ n = 0x02 ∨ n = 0x09 ∨ 0x0E ≤ n.val → perform (.regWrite n v) s = .next s)

/-- R29, R46: an element write of an existing index (below the capacity, R40) with a value of the element's width (32 bits in
`SEQ`, 8 elsewhere) changes that element and no other, in this region or another, and no register; the length register is
unchanged. -/
def Obligations.HostElementWrite : Prop :=
  ∀ (s : State) (X : RegionName) (i v : Nat), (∀ n, s.cfg.cap X = some n → i < n) → v < (if X = .seq then 2 ^ 32 else 256) →
    ∃ t, perform (.regionWrite X i v) s = .next t ∧
      (∀ Y j, t.readElem Y j = if Y = X ∧ j = i then v else s.readElem Y j) ∧
      (∀ m, regValue t (regOf m) = regValue s (regOf m))

/-- R18, R17: a register read returns the register its number names, as R18's map lists them: 0x01 `STATUS`, 0x02 `CFG` (0 under
`MSF`, 1 under `LSF`), 0x03 `ECOUNT`, 0x04 to 0x07 `Q[0..3]`, 0x08 `CTRLB`, 0x09 `NBYTES`, 0x0A to 0x0D the lengths of `SEQ`, `CTL`,
`PAY`, `ENV`; `CMD` (0x00) and the reserved numbers 0x0E to 0x3F read 0. R29, R23, R46: a read of an element below the length
returns it, the region's value at that index (R20), and changes nothing but the reply; between the length and the capacity the
value is unspecified, but the read is answered (log 6, with the counter of log 14); replies are recorded as log 13 says. -/
def Obligations.HostReads : Prop :=
  (∀ (s : State) (n : Fin 64), perform (.regRead n) s = .next { s with replies := s.replies ++ [(.regRead n, regValue s (regOf n))] }) ∧
  (∀ (s : State) (n : Fin 64), ∃ v, perform (.regRead n) s = .next { s with replies := s.replies ++ [(.regRead n, v)] } ∧
    (n = 0x00 → v = 0) ∧ (n = 0x01 → v = s.status.toNat) ∧
    (n = 0x02 → s.cfg.ctrlOrder = .msf → v = 0) ∧ (n = 0x02 → s.cfg.ctrlOrder = .lsf → v = 1) ∧
    (n = 0x03 → v = s.ecount.toNat) ∧
    (n = 0x04 → v = s.q.v0.toNat) ∧ (n = 0x05 → v = s.q.v1.toNat) ∧ (n = 0x06 → v = s.q.v2.toNat) ∧ (n = 0x07 → v = s.q.v3.toNat) ∧
    (n = 0x08 → v = s.ctrlb.toNat) ∧ (n = 0x09 → v = s.nbytes.toNat) ∧
    (n = 0x0A → v = s.seq.len) ∧ (n = 0x0B → v = s.ctl.len) ∧ (n = 0x0C → v = s.pay.len) ∧ (n = 0x0D → v = s.env.len) ∧
    (0x0E ≤ n.val → v = 0)) ∧
  (∀ (s : State) (X : RegionName) (i : Nat), i < s.regionLen X →
    perform (.regionRead X i) s = .next { s with replies := s.replies ++ [(.regionRead X i, s.readElem X i)] }) ∧
  (∀ (s : State) (i : Nat),
    (i < s.seq.len → (s.seqVal[i]?).map BitVec.toNat = some (s.readElem .seq i)) ∧
    (i < s.ctl.len → (s.ctlVal[i]?).map BitVec.toNat = some (s.readElem .ctl i)) ∧
    (i < s.pay.len → (s.payVal[i]?).map BitVec.toNat = some (s.readElem .pay i)) ∧
    (i < s.env.len → (s.envVal[i]?).map BitVec.toNat = some (s.readElem .env i))) ∧
  (∀ (s : State) (X : RegionName) (i : Nat), s.regionLen X ≤ i → (∀ n, s.cfg.cap X = some n → i < n) →
    ∃ v, v < (if X = .seq then 2 ^ 32 else 256) ∧
      perform (.regionRead X i) s = .next { s with replies := s.replies ++ [(.regionRead X i, v)], draws := s.draws + 1 })

/-- R40, 93 U7: where the machine stops: a read of an index at or beyond a bounded capacity faults; a write of such an index, or
of a length above the capacity, has no move (log 7). -/
def Obligations.NoMoveBeyondTheCapacity : Prop :=
  ∀ (s : State) (X : RegionName) (i v n : Nat), s.cfg.cap X = some n → n ≤ i → s.regionLen X ≤ i →
    perform (.regionRead X i) s = .fault .noSuchElement ∧
    perform (.regionWrite X i v) s = .refused .writeBeyondCapacity ∧
    (∀ m, regOf m = .len X → fits (s.cfg.cap X) (i + 1) = false ∧
      perform (.regWrite m (i + 1)) s = .refused .lengthAboveCapacity)

/-! ### The whole machine -/

/-- The invariant holds right after reset, for every configuration: `STATUS` 0, regions in canonical form and empty. -/
def Obligations.InvariantAtReset : Prop := State.reset.Inv ∧ ∀ c : Config, (State.resetWith c).Inv

/-- Every step keeps the invariant: `STATUS` is one of the seven words R16 admits (busy and done never both 1, no code 5 to 7,
reserved bits zero), `NBYTES` is 0 or 4 to 16 (R13), every region's storage is canonical and within its capacity and its length
within it too (R21), and nothing is held that a busy block serves at once. -/
def Obligations.StepKeepsTheInvariant : Prop := ∀ s t : State, s.Inv → step s = .next t → t.Inv

/-- R17, R6: the configuration is constant: no step changes it, not even a reset. -/
def Obligations.ConfigurationIsConstant : Prop := ∀ s t : State, step s = .next t → t.cfg = s.cfg

/-- R41: the footprint table: a command changes no component outside its `w` entries; of a region it does not write, the length
and every element read as before; and nothing outside the components changes but `STATUS`. -/
def Obligations.CommandsKeepToTheirFootprint : Prop :=
  ∀ (i : Instr) (s t : State), exec i s = .next t →
    (∀ c, writesComponent i c = false → Untouched s t c) ∧ SameOutside s t

/-- R10, R41: the result of a command is a function of the configuration and the components its row of R41 reads: two states that
agree on those end with the same error and the same outputs. (A register, and only a register, that a failing command leaves
unchanged is no output, R155; an output region is empty then, in both.) -/
def Obligations.ResultDependsOnNamedInputsOnly : Prop :=
  ∀ (i : Instr) (s s' t t' : State), s.cfg = s'.cfg → (∀ c, readsComponent i c = true → SameValue s s' c) →
    exec i s = .next t → exec i s' = .next t' →
    t.status = t'.status ∧
    ∀ c, writesComponent i c = true → SameValue t t' c ∨
      (t.errPin ≠ 0#3 ∧ (∀ X, c ≠ .region X) ∧ SameValue s t c ∧ SameValue s' t' c)

/-- R46: every command other than `DENC` and `DDEC`, issued twice with no host write between, produces the same outputs and the
same `STATUS` both times. -/
def Obligations.CommandsAreIdempotent : Prop :=
  ∀ (i : Instr) (s t u : State), (∀ d r, i ≠ .denc d r) → (∀ d, i ≠ .ddec d) →
    exec i s = .next t → exec i t = .next u → u.status = t.status ∧ ∀ c, SameValue t u c

/-- R195: with the capacities of the rule for `N` elements, no command that handles a sequence of at most `N` elements overflows:
`COMP` and `COMPENV` on such a sequence, `DECOMP` for such a count; and `QENC` never does with room for 16 bytes. -/
def Obligations.CapacityPlanning : Prop :=
  (∀ (s t : State) (n : Nat) (diff : Bool), s.seq.len ≤ n → fits (s.cfg.cap .ctl) (ceil4 n) = true →
    fits (s.cfg.cap .pay) (16 * ceil4 n) = true → fits (s.cfg.cap .env) (4 + 17 * ceil4 n) = true →
    (exec (.comp diff) s = .next t ∨ exec (.compenv diff) s = .next t) → t.errPin = 0#3) ∧
  (∀ (s t : State) (n : Nat) (diff : Bool), s.ecount.toNat ≤ n → fits (s.cfg.cap .seq) n = true →
    exec (.decomp diff) s = .next t → t.errPin ≠ 4#3) ∧
  (∀ s t : State, fits (s.cfg.cap .pay) 16 = true → exec .qenc s = .next t → t.errPin = 0#3)
end

