-- ==== Sys2Proof/Laws/State.lean ====
section
/-! SUPPORT. One lemma per field per update of the state: what each shared update leaves in each field. -/

namespace Sys2Proof.Machine

/-! ### The end of a command -/

@[simp] theorem complete_cfg (e : Err) (s : State) : (complete e s).cfg = s.cfg := rfl

@[simp] theorem complete_status (e : Err) (s : State) : (complete e s).status = statusWord false true (errCode e) := rfl

@[simp] theorem complete_cmdr (e : Err) (s : State) : (complete e s).cmdr = s.cmdr := rfl

@[simp] theorem complete_ecount (e : Err) (s : State) : (complete e s).ecount = s.ecount := rfl

@[simp] theorem complete_q (e : Err) (s : State) : (complete e s).q = s.q := rfl

@[simp] theorem complete_ctrlb (e : Err) (s : State) : (complete e s).ctrlb = s.ctrlb := rfl

@[simp] theorem complete_nbytes (e : Err) (s : State) : (complete e s).nbytes = s.nbytes := rfl

@[simp] theorem complete_seq (e : Err) (s : State) : (complete e s).seq = s.seq := rfl

@[simp] theorem complete_ctl (e : Err) (s : State) : (complete e s).ctl = s.ctl := rfl

@[simp] theorem complete_pay (e : Err) (s : State) : (complete e s).pay = s.pay := rfl

@[simp] theorem complete_env (e : Err) (s : State) : (complete e s).env = s.env := rfl

@[simp] theorem complete_held (e : Err) (s : State) : (complete e s).held = s.held := rfl

@[simp] theorem complete_inbox (e : Err) (s : State) : (complete e s).inbox = s.inbox := rfl

@[simp] theorem complete_replies (e : Err) (s : State) : (complete e s).replies = s.replies := rfl

@[simp] theorem complete_draws (e : Err) (s : State) : (complete e s).draws = s.draws := rfl

@[simp] theorem complete_seqVal (e : Err) (s : State) : (complete e s).seqVal = s.seqVal := rfl

@[simp] theorem complete_ctlVal (e : Err) (s : State) : (complete e s).ctlVal = s.ctlVal := rfl

@[simp] theorem complete_payVal (e : Err) (s : State) : (complete e s).payVal = s.payVal := rfl

@[simp] theorem complete_envVal (e : Err) (s : State) : (complete e s).envVal = s.envVal := rfl

@[simp] theorem complete_busy (e : Err) (s : State) : (complete e s).busy = false := by
  show (statusWord false true (errCode e)).getLsbD 0 = false
  cases e <;> decide

@[simp] theorem complete_donePin (e : Err) (s : State) : (complete e s).donePin = true := by
  show (statusWord false true (errCode e)).getLsbD 1 = true
  cases e <;> decide

@[simp] theorem complete_errPin (e : Err) (s : State) : (complete e s).errPin = errCode e := by
  show (statusWord false true (errCode e)).extractLsb' 2 3 = errCode e
  cases e <;> decide

/-- Completing twice is completing with the last error. -/
@[simp] theorem complete_complete (e e' : Err) (s : State) : complete e (complete e' s) = complete e s := rfl

/-- An error code tells its error kind (R151). -/
theorem errCode_injective {e e' : Err} (h : errCode e = errCode e') : e = e' := by
  cases e <;> cases e' <;> first | rfl | cases h

/-- `STATUS` after each way a command ends: the words of 95_test_vectors.md's conventions. -/
theorem statusWord_done (e : Err) : statusWord false true (errCode e) = match e with
    | .noError => 0x02#8
    | .truncatedInput => 0x06#8
    | .controlByteCountMismatch => 0x0A#8
    | .illegalCommand => 0x0E#8
    | .regionOverflow => 0x12#8 := by
  cases e <;> decide

/-- `STATUS` after an accepted command. -/
theorem statusWord_start : statusWord true false (errCode .noError) = 0x01#8 := by decide

/-! ### The start of a command -/

@[simp] theorem startCommand_cfg (c : Byte) (s : State) : (startCommand c s).cfg = s.cfg := rfl

@[simp] theorem startCommand_status (c : Byte) (s : State) : (startCommand c s).status = 0x01#8 := statusWord_start

@[simp] theorem startCommand_cmdr (c : Byte) (s : State) : (startCommand c s).cmdr = c := rfl

@[simp] theorem startCommand_ecount (c : Byte) (s : State) : (startCommand c s).ecount = s.ecount := rfl

@[simp] theorem startCommand_q (c : Byte) (s : State) : (startCommand c s).q = s.q := rfl

@[simp] theorem startCommand_ctrlb (c : Byte) (s : State) : (startCommand c s).ctrlb = s.ctrlb := rfl

@[simp] theorem startCommand_nbytes (c : Byte) (s : State) : (startCommand c s).nbytes = s.nbytes := rfl

@[simp] theorem startCommand_seq (c : Byte) (s : State) : (startCommand c s).seq = s.seq := rfl

@[simp] theorem startCommand_ctl (c : Byte) (s : State) : (startCommand c s).ctl = s.ctl := rfl

@[simp] theorem startCommand_pay (c : Byte) (s : State) : (startCommand c s).pay = s.pay := rfl

@[simp] theorem startCommand_env (c : Byte) (s : State) : (startCommand c s).env = s.env := rfl

@[simp] theorem startCommand_held (c : Byte) (s : State) : (startCommand c s).held = s.held := rfl

@[simp] theorem startCommand_inbox (c : Byte) (s : State) : (startCommand c s).inbox = s.inbox := rfl

@[simp] theorem startCommand_replies (c : Byte) (s : State) : (startCommand c s).replies = s.replies := rfl

@[simp] theorem startCommand_draws (c : Byte) (s : State) : (startCommand c s).draws = s.draws := rfl

@[simp] theorem startCommand_seqVal (c : Byte) (s : State) : (startCommand c s).seqVal = s.seqVal := rfl

@[simp] theorem startCommand_ctlVal (c : Byte) (s : State) : (startCommand c s).ctlVal = s.ctlVal := rfl

@[simp] theorem startCommand_payVal (c : Byte) (s : State) : (startCommand c s).payVal = s.payVal := rfl

@[simp] theorem startCommand_envVal (c : Byte) (s : State) : (startCommand c s).envVal = s.envVal := rfl

@[simp] theorem startCommand_busy (c : Byte) (s : State) : (startCommand c s).busy = true := by
  show (statusWord true false (errCode .noError)).getLsbD 0 = true
  decide

/-! ### Reset -/

@[simp] theorem resetBlock_cfg (s : State) : (resetBlock s).cfg = s.cfg := rfl

@[simp] theorem resetBlock_status (s : State) : (resetBlock s).status = 0x00#8 := rfl

@[simp] theorem resetBlock_cmdr (s : State) : (resetBlock s).cmdr = 0x00#8 := rfl

@[simp] theorem resetBlock_ecount (s : State) : (resetBlock s).ecount = 0#32 := rfl

@[simp] theorem resetBlock_q (s : State) : (resetBlock s).q = ⟨0#32, 0#32, 0#32, 0#32⟩ := rfl

@[simp] theorem resetBlock_ctrlb (s : State) : (resetBlock s).ctrlb = 0x00#8 := rfl

@[simp] theorem resetBlock_nbytes (s : State) : (resetBlock s).nbytes = 0#5 := rfl

@[simp] theorem resetBlock_seq (s : State) : (resetBlock s).seq = s.seq.clear := rfl

@[simp] theorem resetBlock_ctl (s : State) : (resetBlock s).ctl = s.ctl.clear := rfl

@[simp] theorem resetBlock_pay (s : State) : (resetBlock s).pay = s.pay.clear := rfl

@[simp] theorem resetBlock_env (s : State) : (resetBlock s).env = s.env.clear := rfl

@[simp] theorem resetBlock_held (s : State) : (resetBlock s).held = heldAfterReset s.seq.epoch 0 s.held := rfl

@[simp] theorem resetBlock_inbox (s : State) : (resetBlock s).inbox = s.inbox := rfl

@[simp] theorem resetBlock_replies (s : State) : (resetBlock s).replies = s.replies := rfl

@[simp] theorem resetBlock_draws (s : State) : (resetBlock s).draws = s.draws := rfl

/-! ### A reply to the host -/

@[simp] theorem reply_cfg (s : State) (a : HostAccess) (v : Nat) : (reply s a v).cfg = s.cfg := rfl

@[simp] theorem reply_status (s : State) (a : HostAccess) (v : Nat) : (reply s a v).status = s.status := rfl

@[simp] theorem reply_cmdr (s : State) (a : HostAccess) (v : Nat) : (reply s a v).cmdr = s.cmdr := rfl

@[simp] theorem reply_ecount (s : State) (a : HostAccess) (v : Nat) : (reply s a v).ecount = s.ecount := rfl

@[simp] theorem reply_q (s : State) (a : HostAccess) (v : Nat) : (reply s a v).q = s.q := rfl

@[simp] theorem reply_ctrlb (s : State) (a : HostAccess) (v : Nat) : (reply s a v).ctrlb = s.ctrlb := rfl

@[simp] theorem reply_nbytes (s : State) (a : HostAccess) (v : Nat) : (reply s a v).nbytes = s.nbytes := rfl

@[simp] theorem reply_seq (s : State) (a : HostAccess) (v : Nat) : (reply s a v).seq = s.seq := rfl

@[simp] theorem reply_ctl (s : State) (a : HostAccess) (v : Nat) : (reply s a v).ctl = s.ctl := rfl

@[simp] theorem reply_pay (s : State) (a : HostAccess) (v : Nat) : (reply s a v).pay = s.pay := rfl

@[simp] theorem reply_env (s : State) (a : HostAccess) (v : Nat) : (reply s a v).env = s.env := rfl

@[simp] theorem reply_held (s : State) (a : HostAccess) (v : Nat) : (reply s a v).held = s.held := rfl

@[simp] theorem reply_inbox (s : State) (a : HostAccess) (v : Nat) : (reply s a v).inbox = s.inbox := rfl

@[simp] theorem reply_replies (s : State) (a : HostAccess) (v : Nat) : (reply s a v).replies = s.replies ++ [(a, v)] := rfl

@[simp] theorem reply_draws (s : State) (a : HostAccess) (v : Nat) : (reply s a v).draws = s.draws := rfl

/-! ### A host write of a length or an element -/

@[simp] theorem setRegionLen_cfg (s : State) (X : RegionName) (n : Nat) : (s.setRegionLen X n).cfg = s.cfg := by
  cases X <;> rfl

@[simp] theorem setRegionLen_status (s : State) (X : RegionName) (n : Nat) : (s.setRegionLen X n).status = s.status := by
  cases X <;> rfl

@[simp] theorem setRegionLen_cmdr (s : State) (X : RegionName) (n : Nat) : (s.setRegionLen X n).cmdr = s.cmdr := by
  cases X <;> rfl

@[simp] theorem setRegionLen_ecount (s : State) (X : RegionName) (n : Nat) : (s.setRegionLen X n).ecount = s.ecount := by
  cases X <;> rfl

@[simp] theorem setRegionLen_q (s : State) (X : RegionName) (n : Nat) : (s.setRegionLen X n).q = s.q := by
  cases X <;> rfl

@[simp] theorem setRegionLen_ctrlb (s : State) (X : RegionName) (n : Nat) : (s.setRegionLen X n).ctrlb = s.ctrlb := by
  cases X <;> rfl

@[simp] theorem setRegionLen_nbytes (s : State) (X : RegionName) (n : Nat) : (s.setRegionLen X n).nbytes = s.nbytes := by
  cases X <;> rfl

@[simp] theorem setRegionLen_held (s : State) (X : RegionName) (n : Nat) : (s.setRegionLen X n).held = s.held := by
  cases X <;> rfl

@[simp] theorem setRegionLen_inbox (s : State) (X : RegionName) (n : Nat) : (s.setRegionLen X n).inbox = s.inbox := by
  cases X <;> rfl

@[simp] theorem setRegionLen_replies (s : State) (X : RegionName) (n : Nat) : (s.setRegionLen X n).replies = s.replies := by
  cases X <;> rfl

@[simp] theorem setRegionLen_draws (s : State) (X : RegionName) (n : Nat) : (s.setRegionLen X n).draws = s.draws := by
  cases X <;> rfl

@[simp] theorem writeElem_cfg (s : State) (X : RegionName) (i v : Nat) : (s.writeElem X i v).cfg = s.cfg := by
  cases X <;> rfl

@[simp] theorem writeElem_status (s : State) (X : RegionName) (i v : Nat) : (s.writeElem X i v).status = s.status := by
  cases X <;> rfl

@[simp] theorem writeElem_cmdr (s : State) (X : RegionName) (i v : Nat) : (s.writeElem X i v).cmdr = s.cmdr := by
  cases X <;> rfl

@[simp] theorem writeElem_ecount (s : State) (X : RegionName) (i v : Nat) : (s.writeElem X i v).ecount = s.ecount := by
  cases X <;> rfl

@[simp] theorem writeElem_q (s : State) (X : RegionName) (i v : Nat) : (s.writeElem X i v).q = s.q := by
  cases X <;> rfl

@[simp] theorem writeElem_ctrlb (s : State) (X : RegionName) (i v : Nat) : (s.writeElem X i v).ctrlb = s.ctrlb := by
  cases X <;> rfl

@[simp] theorem writeElem_nbytes (s : State) (X : RegionName) (i v : Nat) : (s.writeElem X i v).nbytes = s.nbytes := by
  cases X <;> rfl

@[simp] theorem writeElem_held (s : State) (X : RegionName) (i v : Nat) : (s.writeElem X i v).held = s.held := by
  cases X <;> rfl

@[simp] theorem writeElem_inbox (s : State) (X : RegionName) (i v : Nat) : (s.writeElem X i v).inbox = s.inbox := by
  cases X <;> rfl

@[simp] theorem writeElem_replies (s : State) (X : RegionName) (i v : Nat) : (s.writeElem X i v).replies = s.replies := by
  cases X <;> rfl

@[simp] theorem writeElem_draws (s : State) (X : RegionName) (i v : Nat) : (s.writeElem X i v).draws = s.draws := by
  cases X <;> rfl

end Sys2Proof.Machine
end

