-- ==== Sys2Proof/Laws/Region.lean ====
section
/-! SUPPORT. What the operations on a region do: reads after writes, the value of a region after a command wrote it, and that
every one of them keeps the canonical form (`Region.wf`, `Memory.wf`). -/

namespace Sys2Proof.Machine

variable {α : Type}

/-- A read after a write of one element: the written value there, the old one elsewhere. -/
theorem cellGet_cellSet (cs : List (Nat × α)) (i j : Nat) (v : α) :
    cellGet (cellSet cs i v) j = if j = i then some v else cellGet cs j := by
  induction cs with
  | nil => simp [cellSet, cellGet]
  | cons c cs ih =>
    obtain ⟨k, w⟩ := c
    simp only [cellSet]
    split <;> rename_i h
    · simp only [cellGet]
    · split <;> rename_i hk
      · subst hk; simp only [cellGet]; split <;> rfl
      · simp only [cellGet, ih]
        split <;> split <;> simp_all

/-- The element listed by `cellsFrom`. -/
theorem cellGet_cellsFrom (l : List α) (a i : Nat) :
    cellGet (cellsFrom a l) i = if i < a then none else l[i - a]? := by
  induction l generalizing a with
  | nil => simp [cellsFrom, cellGet]
  | cons v vs ih =>
    simp only [cellsFrom, cellGet, ih]
    rcases Nat.lt_trichotomy i a with h | h | h
    · simp [h, Nat.ne_of_lt h, Nat.lt_succ_of_lt h]
    · simp [h]
    · have : i - a = (i - (a + 1)) + 1 := by omega
      simp [Nat.ne_of_gt h, Nat.not_lt.mpr (Nat.le_of_lt h), Nat.not_lt.mpr h, this]

/-- An element of a region a command wrote. -/
theorem elem_store (free : Nat → Nat → α) (r : Region α) (l : List α) (i : Nat) (h : i < l.length) :
    (r.store l).elem free i = l[i] := by
  simp [Region.elem, Region.store, cellGet_cellsFrom, h]

/-- The value of a region a command wrote is what it wrote. -/
@[simp] theorem values_store (free : Nat → Nat → α) (r : Region α) (l : List α) : (r.store l).values free = l := by
  apply List.ext_getElem
  · simp [Region.values, Region.store]
  · intro i h₁ h₂
    simp only [Region.values, List.getElem_map, List.getElem_range]
    exact elem_store free r l i h₂

@[simp] theorem values_clear (free : Nat → Nat → α) (r : Region α) : r.clear.values free = [] := values_store free r []

@[simp] theorem length_values (free : Nat → Nat → α) (r : Region α) : (r.values free).length = r.len := by
  simp [Region.values]

@[simp] theorem len_store (r : Region α) (l : List α) : (r.store l).len = l.length := rfl

@[simp] theorem len_clear (r : Region α) : r.clear.len = 0 := rfl

@[simp] theorem length_seqVal (s : State) : s.seqVal.length = s.seq.len := length_values _ _

@[simp] theorem length_ctlVal (s : State) : s.ctlVal.length = s.ctl.len := length_values _ _

@[simp] theorem length_payVal (s : State) : s.payVal.length = s.pay.len := length_values _ _

@[simp] theorem length_envVal (s : State) : s.envVal.length = s.env.len := length_values _ _

/-- A read of one element after a host write of one element of the same region. -/
theorem elem_setElem (free : Nat → Nat → α) (r : Region α) (i j : Nat) (v : α) :
    (r.setElem i v).elem free j = if j = i then v else r.elem free j := by
  simp only [Region.elem, Region.setElem, cellGet_cellSet]
  split <;> rfl

/-! ### The canonical form -/

theorem region_wf_iff (cap : Option Nat) (r : Region α) :
    r.wf cap = true ↔ (r.cells.map Prod.fst).Pairwise (· < ·) ∧ (∀ c ∈ r.cells, indexExists cap c.1 = true) ∧
      fits cap r.len = true := by
  simp [Region.wf, and_assoc]

theorem cellsFrom_index (l : List α) (a : Nat) : ∀ c ∈ cellsFrom a l, a ≤ c.1 ∧ c.1 < a + l.length := by
  induction l generalizing a with
  | nil => simp [cellsFrom]
  | cons v vs ih =>
    intro c hc
    rcases List.mem_cons.mp hc with rfl | hc
    · simp
    · have := ih (a + 1) c hc
      simp only [List.length_cons]
      omega

theorem cellsFrom_rising (l : List α) (a : Nat) : ((cellsFrom a l).map Prod.fst).Pairwise (· < ·) := by
  induction l generalizing a with
  | nil => simp [cellsFrom]
  | cons v vs ih =>
    simp only [cellsFrom, List.map_cons, List.pairwise_cons]
    refine ⟨fun b hb => ?_, ih (a + 1)⟩
    obtain ⟨c, hc, rfl⟩ := List.mem_map.mp hb
    exact (cellsFrom_index vs (a + 1) c hc).1

theorem cellSet_index (cs : List (Nat × α)) (i : Nat) (v : α) : ∀ c ∈ cellSet cs i v, c.1 = i ∨ c ∈ cs := by
  induction cs with
  | nil => simp [cellSet]
  | cons d cs ih =>
    obtain ⟨k, w⟩ := d
    intro c hc
    simp only [cellSet] at hc
    split at hc
    · rcases List.mem_cons.mp hc with rfl | hc
      · exact .inl rfl
      · exact .inr hc
    · split at hc
      · rcases List.mem_cons.mp hc with rfl | hc
        · exact .inl rfl
        · exact .inr (List.mem_cons_of_mem _ hc)
      · rcases List.mem_cons.mp hc with rfl | hc
        · exact .inr List.mem_cons_self
        · exact (ih c hc).imp_right (List.mem_cons_of_mem _)

theorem cellSet_rising (cs : List (Nat × α)) (i : Nat) (v : α) (h : (cs.map Prod.fst).Pairwise (· < ·)) :
    ((cellSet cs i v).map Prod.fst).Pairwise (· < ·) := by
  induction cs with
  | nil => simp [cellSet]
  | cons d cs ih =>
    obtain ⟨k, w⟩ := d
    have hall := (List.pairwise_cons.mp h).1
    have htail := (List.pairwise_cons.mp h).2
    simp only [cellSet]
    split <;> rename_i hik
    · refine List.pairwise_cons.mpr ⟨fun b hb => ?_, h⟩
      rcases List.mem_cons.mp hb with rfl | hb
      · exact hik
      · exact Nat.lt_trans hik (hall b hb)
    · split <;> rename_i hk
      · subst hk; exact h
      · refine List.pairwise_cons.mpr ⟨fun b hb => ?_, ih htail⟩
        obtain ⟨c, hc, rfl⟩ := List.mem_map.mp hb
        rcases cellSet_index cs i v c hc with hci | hci
        · have hk' : k ≠ i := fun e => hk e.symm
          show k < c.1
          omega
        · exact hall _ (List.mem_map_of_mem hci)

/-- A command that writes a region with what its capacity admits leaves it canonical, whatever it was. -/
theorem store_wf (cap : Option Nat) (r : Region α) (l : List α) (h : fits cap l.length = true) : (r.store l).wf cap = true := by
  refine (region_wf_iff cap _).mpr ⟨cellsFrom_rising l 0, fun c hc => ?_, h⟩
  have hlt := (cellsFrom_index l 0 c hc).2
  cases cap with
  | none => rfl
  | some n =>
    simp only [fits, decide_eq_true_eq] at h
    simp only [indexExists, decide_eq_true_eq]
    omega

theorem clear_wf (cap : Option Nat) (r : Region α) : r.clear.wf cap = true :=
  store_wf cap r [] (by cases cap <;> simp [fits])

theorem empty_wf (cap : Option Nat) : (Region.empty : Region α).wf cap = true :=
  (region_wf_iff cap _).mpr ⟨by simp [Region.empty], by simp [Region.empty], by cases cap <;> simp [fits, Region.empty]⟩

/-- A host write of an existing element keeps the canonical form. -/
theorem setElem_wf (cap : Option Nat) (r : Region α) (i : Nat) (v : α) (hi : indexExists cap i = true)
    (h : r.wf cap = true) : (r.setElem i v).wf cap = true := by
  obtain ⟨hr, hx, hl⟩ := (region_wf_iff cap r).mp h
  refine (region_wf_iff cap _).mpr ⟨cellSet_rising r.cells i v hr, fun c hc => ?_, hl⟩
  rcases cellSet_index r.cells i v c hc with hci | hci
  · exact hci ▸ hi
  · exact hx c hci

/-- A host write of a length the capacity admits keeps the canonical form. -/
theorem setLen_wf (cap : Option Nat) (r : Region α) (n : Nat) (hn : fits cap n = true) (h : r.wf cap = true) :
    ({ r with len := n } : Region α).wf cap = true := by
  obtain ⟨hr, hx, -⟩ := (region_wf_iff cap r).mp h
  exact (region_wf_iff cap _).mpr ⟨hr, hx, hn⟩

theorem memory_wf_iff (s : State) : Memory.wf s = true ↔
    s.seq.wf (s.cfg.cap .seq) = true ∧ s.ctl.wf (s.cfg.cap .ctl) = true ∧ s.pay.wf (s.cfg.cap .pay) = true ∧
      s.env.wf (s.cfg.cap .env) = true := by
  simp [Memory.wf, and_assoc]

theorem setRegionLen_wf (s : State) (X : RegionName) (n : Nat) (hn : fits (s.cfg.cap X) n = true) (h : Memory.wf s = true) :
    Memory.wf (s.setRegionLen X n) = true := by
  obtain ⟨h1, h2, h3, h4⟩ := (memory_wf_iff s).mp h
  rw [memory_wf_iff]
  cases X
  · exact ⟨setLen_wf _ _ n hn h1, h2, h3, h4⟩
  · exact ⟨h1, setLen_wf _ _ n hn h2, h3, h4⟩
  · exact ⟨h1, h2, setLen_wf _ _ n hn h3, h4⟩
  · exact ⟨h1, h2, h3, setLen_wf _ _ n hn h4⟩

theorem writeElem_wf (s : State) (X : RegionName) (i v : Nat) (hi : indexExists (s.cfg.cap X) i = true)
    (h : Memory.wf s = true) : Memory.wf (s.writeElem X i v) = true := by
  obtain ⟨h1, h2, h3, h4⟩ := (memory_wf_iff s).mp h
  rw [memory_wf_iff]
  cases X
  · exact ⟨setElem_wf _ _ i _ hi h1, h2, h3, h4⟩
  · exact ⟨h1, setElem_wf _ _ i _ hi h2, h3, h4⟩
  · exact ⟨h1, h2, setElem_wf _ _ i _ hi h3, h4⟩
  · exact ⟨h1, h2, h3, setElem_wf _ _ i _ hi h4⟩

/-- Reset leaves every region canonical, whatever it was. -/
theorem resetBlock_wf (s : State) : Memory.wf (resetBlock s) = true :=
  (memory_wf_iff _).mpr ⟨clear_wf _ _, clear_wf _ _, clear_wf _ _, clear_wf _ _⟩

/-- The memory right after reset is canonical, for every configuration. -/
theorem resetWith_wf (c : Config) : Memory.wf (State.resetWith c) = true :=
  (memory_wf_iff _).mpr ⟨empty_wf _, empty_wf _, empty_wf _, empty_wf _⟩

end Sys2Proof.Machine
end

