-- ==== Sys2Proof/Laws/Stages.lean ====
section
/-! SUPPORT. What each meaning and each stage does, case by case: the lemmas proofs cite in place of unfolding them. -/

namespace Sys2Proof.Machine

/-- A command that ends without error, as a state: only `STATUS` differs. -/
theorem complete_noError_eq (s : State) : complete .noError s = { s with status := 0x02#8 } := by
  simp only [complete, statusWord_done]

/-- A command that ends with an error, as a state: only `STATUS` differs. -/
theorem complete_eq (e : Err) (s : State) : complete e s = { s with status := (complete e s).status } := rfl

theorem fits_total {cap : Option Nat} {n m : Nat} (h : fits cap m = true) (hn : n ≤ m) : fits cap n = true := by
  cases cap with
  | none => rfl
  | some c => simp only [fits, decide_eq_true_eq] at h ⊢; omega

/-! ### Quad codec -/

theorem execQenc_fits (s : State) (h : fits (s.cfg.cap .pay) (quadEncode s.cfg.ctrlOrder s.q).1.length = true) :
    exec .qenc s = .next (complete .noError
      { s with
        pay := s.pay.store (quadEncode s.cfg.ctrlOrder s.q).1
        ctrlb := (quadEncode s.cfg.ctrlOrder s.q).2
        nbytes := BitVec.ofNat 5 (quadEncode s.cfg.ctrlOrder s.q).1.length }) := by
  simp only [exec, execQenc, h, if_true]

theorem execQenc_overflow (s : State) (h : fits (s.cfg.cap .pay) (quadEncode s.cfg.ctrlOrder s.q).1.length = false) :
    exec .qenc s = .next (complete .regionOverflow { s with pay := s.pay.clear }) := by
  simp only [exec, execQenc, h]
  rfl

theorem execQdec_truncated (s : State) (h : quadDecode s.cfg.ctrlOrder s.payVal s.ctrlb = none) :
    exec .qdec s = .next (complete .truncatedInput s) := by
  simp only [exec, execQdec, h]

theorem execQdec_ok (s : State) (v : Quad) (n : Nat) (h : quadDecode s.cfg.ctrlOrder s.payVal s.ctrlb = some (v, n)) :
    exec .qdec s = .next (complete .noError { s with q := v, nbytes := BitVec.ofNat 5 n }) := by
  simp only [exec, execQdec, h]

/-- The number of bytes a successful decode consumes is what the control byte declares. -/
theorem quadDecode_consumes {o : CtrlOrder} {s : List Byte} {c : Byte} {v : Quad} {n : Nat}
    (h : quadDecode o s c = some (v, n)) : n = qlen o c := by
  unfold quadDecode at h
  split at h
  · cases h
  · simp only [Option.some.injEq, Prod.mk.injEq] at h
    exact h.2.symm

/-! ### The commands of one stage are that stage and its end -/

theorem exec_denc (diff : Bool) (r : Nat) (s : State) :
    exec (.denc diff r) s = .next (complete .noError (if diff then { s with q := deltaFwd s.q r } else s)) := rfl

theorem exec_ddec (diff : Bool) (s : State) :
    exec (.ddec diff) s = .next (complete .noError (if diff then { s with q := deltaInv s.q } else s)) := rfl

theorem exec_comp (diff : Bool) (s : State) :
    exec (.comp diff) s = .next (complete (compStage diff s).2 (compStage diff s).1) := rfl

theorem exec_decomp (diff : Bool) (s : State) :
    exec (.decomp diff) s = .next (complete (decompStage diff s).2 (decompStage diff s).1) := rfl

theorem exec_ser (s : State) : exec .ser s = .next (complete (serStage s).2 (serStage s).1) := rfl

theorem exec_deser (s : State) : exec .deser s = .next (complete (deserStage s).2 (deserStage s).1) := rfl

/-! ### Stages: each ends in one of these states -/

/-- `COMP` fits, or empties its two output regions with `RegionOverflow`. -/
theorem compStage_cases (diff : Bool) (s : State) :
    (fits (s.cfg.cap .pay) (compress s.cfg.ctrlOrder diff s.seqVal).1.length = true ∧
      fits (s.cfg.cap .ctl) (compress s.cfg.ctrlOrder diff s.seqVal).2.length = true ∧
      compStage diff s = ({ s with
        pay := s.pay.store (compress s.cfg.ctrlOrder diff s.seqVal).1
        ctl := s.ctl.store (compress s.cfg.ctrlOrder diff s.seqVal).2
        ecount := BitVec.ofNat 32 s.seq.len }, .noError)) ∨
    ((fits (s.cfg.cap .pay) (compress s.cfg.ctrlOrder diff s.seqVal).1.length = false ∨
      fits (s.cfg.cap .ctl) (compress s.cfg.ctrlOrder diff s.seqVal).2.length = false) ∧
      compStage diff s = ({ s with pay := s.pay.clear, ctl := s.ctl.clear }, .regionOverflow)) := by
  unfold compStage
  cases h1 : fits (s.cfg.cap .pay) (compress s.cfg.ctrlOrder diff s.seqVal).1.length <;>
    cases h2 : fits (s.cfg.cap .ctl) (compress s.cfg.ctrlOrder diff s.seqVal).2.length <;> simp [h1, h2]

/-- `DECOMP` succeeds, or empties `SEQ` with the error of `Decompress`, or with `RegionOverflow`. -/
theorem decompStage_cases (diff : Bool) (s : State) :
    (∃ out, decompress s.cfg.ctrlOrder diff s.payVal s.ctlVal s.ecount.toNat = .ok out ∧
      fits (s.cfg.cap .seq) s.ecount.toNat = true ∧ decompStage diff s = ({ s with seq := s.seq.store out }, .noError)) ∨
    (∃ out, decompress s.cfg.ctrlOrder diff s.payVal s.ctlVal s.ecount.toNat = .ok out ∧
      fits (s.cfg.cap .seq) s.ecount.toNat = false ∧ decompStage diff s = ({ s with seq := s.seq.clear }, .regionOverflow)) ∨
    (∃ e, decompress s.cfg.ctrlOrder diff s.payVal s.ctlVal s.ecount.toNat = .error e ∧
      decompStage diff s = ({ s with seq := s.seq.clear }, e)) := by
  unfold decompStage
  cases h : decompress s.cfg.ctrlOrder diff s.payVal s.ctlVal s.ecount.toNat with
  | error e => simp
  | ok out => cases hf : fits (s.cfg.cap .seq) s.ecount.toNat <;> simp

/-- The errors of `Decompress`: no other than the two the rule names (R115). -/
theorem decompress_error {o : CtrlOrder} {diff : Bool} {pay ctl : List Byte} {n : Nat} {e : Err}
    (h : decompress o diff pay ctl n = .error e) : e = .controlByteCountMismatch ∨ e = .truncatedInput := by
  unfold decompress at h
  split at h
  · cases h; exact .inl rfl
  · split at h
    · cases h; exact .inr rfl
    · cases h

/-- `SER` fits, or empties `ENV` with `RegionOverflow`. -/
theorem serStage_cases (s : State) :
    (fits (s.cfg.cap .env) (serialize s.payVal s.ctlVal s.ecount).length = true ∧
      serStage s = ({ s with env := s.env.store (serialize s.payVal s.ctlVal s.ecount) }, .noError)) ∨
    (fits (s.cfg.cap .env) (serialize s.payVal s.ctlVal s.ecount).length = false ∧
      serStage s = ({ s with env := s.env.clear }, .regionOverflow)) := by
  unfold serStage
  cases h : fits (s.cfg.cap .env) (serialize s.payVal s.ctlVal s.ecount).length <;> simp [h]

/-- `DESER` succeeds, or empties `CTL` and `PAY` with `RegionOverflow`, or with `TruncatedInput`. -/
theorem deserStage_cases (s : State) :
    (∃ pay ctl n, deserialize s.envVal = some (pay, ctl, n) ∧ fits (s.cfg.cap .ctl) ctl.length = true ∧
      fits (s.cfg.cap .pay) pay.length = true ∧
      deserStage s = ({ s with ctl := s.ctl.store ctl, pay := s.pay.store pay, ecount := n }, .noError)) ∨
    (∃ pay ctl n, deserialize s.envVal = some (pay, ctl, n) ∧
      (fits (s.cfg.cap .ctl) ctl.length = false ∨ fits (s.cfg.cap .pay) pay.length = false) ∧
      deserStage s = ({ s with ctl := s.ctl.clear, pay := s.pay.clear }, .regionOverflow)) ∨
    (deserialize s.envVal = none ∧ deserStage s = ({ s with ctl := s.ctl.clear, pay := s.pay.clear }, .truncatedInput)) := by
  unfold deserStage
  cases h : deserialize s.envVal with
  | none => simp
  | some r =>
    obtain ⟨pay, ctl, n⟩ := r
    cases h1 : fits (s.cfg.cap .ctl) ctl.length <;> cases h2 : fits (s.cfg.cap .pay) pay.length <;> simp [h1, h2]

/-- `SER` neither reads nor writes `STATUS`: it runs alike in a state a first stage completed. -/
theorem serStage_complete (e : Err) (s : State) :
    serStage (complete e s) = (complete e (serStage s).1, (serStage s).2) := by
  rcases serStage_cases s with ⟨h, e'⟩ | ⟨h, e'⟩ <;>
    · rw [e']
      simp only [serStage, complete_payVal, complete_ctlVal, complete_ecount, complete_cfg, h]
      rfl

/-- `DECOMP` neither reads nor writes `STATUS`. -/
theorem decompStage_complete (diff : Bool) (e : Err) (s : State) :
    decompStage diff (complete e s) = (complete e (decompStage diff s).1, (decompStage diff s).2) := by
  rcases decompStage_cases diff s with ⟨out, h, hf, e'⟩ | ⟨out, h, hf, e'⟩ | ⟨er, h, e'⟩
  · rw [e']
    simp only [decompStage, complete_payVal, complete_ctlVal, complete_ecount, complete_cfg, h, hf]
    rfl
  · rw [e']
    simp only [decompStage, complete_payVal, complete_ctlVal, complete_ecount, complete_cfg, h, hf]
    rfl
  · rw [e']
    simp only [decompStage, complete_payVal, complete_ctlVal, complete_ecount, complete_cfg, h]
    rfl

/-! ### Composite commands: the stages in order -/

theorem execCompenv_second {diff : Bool} {s s1 : State} (h : compStage diff s = (s1, .noError)) :
    exec (.compenv diff) s = .next (complete (serStage s1).2 (serStage s1).1) := by
  simp only [exec, execCompenv, h]

theorem execCompenv_first {diff : Bool} {s s1 : State} {e : Err} (h : compStage diff s = (s1, e)) (he : e ≠ .noError) :
    exec (.compenv diff) s = .next (complete e { s1 with env := s1.env.clear }) := by
  cases e <;> simp_all [exec, execCompenv]

theorem execDecompenv_second {diff : Bool} {s s1 : State} (h : deserStage s = (s1, .noError)) :
    exec (.decompenv diff) s = .next (complete (decompStage diff s1).2 (decompStage diff s1).1) := by
  simp only [exec, execDecompenv, h]

theorem execDecompenv_first {diff : Bool} {s s1 : State} {e : Err} (h : deserStage s = (s1, e)) (he : e ≠ .noError) :
    exec (.decompenv diff) s = .next (complete e { s1 with seq := s1.seq.clear }) := by
  cases e <;> simp_all [exec, execDecompenv]

/-! ### Steps -/

/-- A busy block is one whose next move is `moveBusy`. -/
theorem step_busy {s : State} (h : s.busy = true) : step s = moveBusy s := by
  simp only [step, move, h, if_true]

/-- An idle block that holds nothing makes the host's next move. -/
theorem step_idle {s : State} (h : s.busy = false) (hh : s.held = []) : step s = moveIdle s := by
  simp only [step, move, h, hh]
  rfl

/-- An idle block that holds an access performs it first. -/
theorem step_held {s : State} {a : HostAccess} {as : List HostAccess} (h : s.busy = false) (hh : s.held = a :: as) :
    step s = moveHeld a as s := by
  simp only [step, move, h, hh]
  rfl

/-- What a step can be, whatever the state: the run of the latched command, a reset, an access held, an access performed, or
the passing of time. `s'` is `s` but for the interface's lists. -/
theorem step_cases (s : State) : ∃ s', s' = { s with held := s'.held, inbox := s'.inbox } ∧
    ((s.busy = true ∧ s'.held = s.held ∧ step s = runCommand s') ∨
      (s.inbox = .reset :: s'.inbox ∧ s'.held = s.held ∧ step s = .next (resetBlock s')) ∨
      (∃ a, s.busy = true ∧ servedWhileBusy a = false ∧ s'.held = s.held ++ [a] ∧ step s = .next s') ∨
      (∃ a, s.busy = true ∧ servedWhileBusy a = true ∧ s'.held = s.held ∧ step s = perform a s') ∨
      (∃ a, s.busy = false ∧ s.held = [] ∧ s.inbox = .access a :: s'.inbox ∧ s'.held = [] ∧ step s = perform a s') ∨
      (∃ a, s.busy = false ∧ s.held = a :: s'.held ∧ step s = perform a s') ∨
      (s.busy = false ∧ s'.held = s.held ∧ step s = .next s')) := by
  cases hb : s.busy with
  | true =>
    rw [step_busy hb]
    cases hi : s.inbox with
    | nil => exact ⟨s, rfl, .inl ⟨rfl, rfl, by simp only [moveBusy, hi]⟩⟩
    | cons e es =>
      cases e with
      | elapse => exact ⟨{ s with inbox := es }, rfl, .inl ⟨rfl, rfl, by simp only [moveBusy, hi]⟩⟩
      | reset => exact ⟨{ s with inbox := es }, rfl, .inr (.inl ⟨rfl, rfl, by simp only [moveBusy, hi]⟩)⟩
      | access a =>
        cases ha : servedWhileBusy a with
        | true =>
          exact ⟨{ s with inbox := es }, rfl, .inr (.inr (.inr (.inl ⟨a, rfl, ha, rfl, by simp only [moveBusy, hi, ha, if_true]⟩)))⟩
        | false =>
          exact ⟨{ s with inbox := es, held := s.held ++ [a] }, rfl,
            .inr (.inr (.inl ⟨a, rfl, ha, rfl, by simp [moveBusy, hi, ha]⟩))⟩
  | false =>
    cases hh : s.held with
    | nil =>
      rw [step_idle hb hh]
      cases hi : s.inbox with
      | nil => exact ⟨s, rfl, .inr (.inr (.inr (.inr (.inr (.inr ⟨rfl, hh, by simp only [moveIdle, hi]⟩)))))⟩
      | cons e es =>
        cases e with
        | elapse =>
          exact ⟨{ s with inbox := es }, rfl, .inr (.inr (.inr (.inr (.inr (.inr ⟨rfl, hh, by simp only [moveIdle, hi]⟩)))))⟩
        | reset => exact ⟨{ s with inbox := es }, rfl, .inr (.inl ⟨rfl, hh, by simp only [moveIdle, hi]⟩)⟩
        | access a =>
          exact ⟨{ s with inbox := es }, rfl, .inr (.inr (.inr (.inr (.inl ⟨a, rfl, rfl, rfl, hh, by simp only [moveIdle, hi]⟩))))⟩
    | cons a as =>
      rw [step_held hb hh]
      cases hi : s.inbox with
      | nil => exact ⟨{ s with held := as }, rfl, .inr (.inr (.inr (.inr (.inr (.inl ⟨a, rfl, rfl, by simp only [moveHeld, hi]⟩)))))⟩
      | cons e es =>
        cases e with
        | elapse =>
          exact ⟨{ s with held := as, inbox := es }, rfl,
            .inr (.inr (.inr (.inr (.inr (.inl ⟨a, rfl, rfl, by simp only [moveHeld, hi]⟩)))))⟩
        | reset => exact ⟨{ s with inbox := es }, rfl, .inr (.inl ⟨rfl, hh, by simp only [moveHeld, hi]⟩)⟩
        | access b =>
          exact ⟨{ s with held := as }, rfl, .inr (.inr (.inr (.inr (.inr (.inl ⟨a, rfl, rfl, by simp only [moveHeld, hi]⟩)))))⟩

end Sys2Proof.Machine
end

