-- ==== Sys2Proof/Laws/Codec.lean ====
section
/-! SUPPORT. One lemma per shared function of the codec that says what it does: bytes of a value, `ceil4`, the quad decoder, the
joiner's loop, the framer, and a host access. -/

namespace Sys2Proof.Machine

/-! ### Bytes of a value -/

theorem leBytes_length (v : Word) (k : Nat) : (leBytes v k).length = k := by
  induction k generalizing v with
  | zero => rfl
  | succ k ih => simp [leBytes, ih]

theorem leValue_leBytes (v : Word) (k : Nat) : leValue (leBytes v k) = v.toNat % 256 ^ k := by
  induction k generalizing v with
  | zero => simp [leBytes, leValue, Nat.mod_one]
  | succ k ih =>
    simp only [leBytes, leValue, ih, BitVec.toNat_setWidth, BitVec.toNat_ushiftRight, Nat.shiftRight_eq_div_pow]
    norm_num
    rw [Nat.pow_succ, Nat.mul_comm (256 ^ k) 256, Nat.mod_mul]

theorem leValue_lt (l : List Byte) : leValue l < 256 ^ l.length := by
  induction l with
  | nil => simp [leValue]
  | cons b bs ih =>
    simp only [leValue, List.length_cons, Nat.pow_succ]
    have := b.isLt
    omega

/-- Up to four bytes lose nothing in a word. -/
theorem leWord_toNat (l : List Byte) (h : l.length ≤ 4) : (leWord l).toNat = leValue l := by
  rw [leWord, BitVec.toNat_ofNat, Nat.mod_eq_of_lt]
  calc leValue l < 256 ^ l.length := leValue_lt l
    _ ≤ 256 ^ 4 := Nat.pow_le_pow_right (by omega) h

/-- The length code of a byte count declares that count. -/
theorem lenCode_toNat_succ (k : Nat) (h : 1 ≤ k) (h4 : k ≤ 4) : (lenCode k).toNat + 1 = k := by
  simp only [lenCode, BitVec.toNat_ofNat]
  omega

theorem slotLen_bounds (o : CtrlOrder) (c : Byte) (i : Fin 4) : 1 ≤ slotLen o c i ∧ slotLen o c i ≤ 4 := by
  have := (field o c i).isLt
  simp only [slotLen]
  omega

/-! ### `ceil4` -/

theorem ceil4_add_four (n : Nat) : ceil4 (n + 4) = ceil4 n + 1 := by
  simp only [ceil4, Nat.add_mod_right]
  omega

theorem ceil4_mono {a b : Nat} (h : a ≤ b) : ceil4 a ≤ ceil4 b := by
  simp only [ceil4]
  split <;> split <;> omega

theorem le_four_mul_ceil4 (n : Nat) : n ≤ 4 * ceil4 n := by
  simp only [ceil4]
  split <;> omega

/-! ### The quad decoder and the joiner's loop -/

theorem quadDecode_none_iff (o : CtrlOrder) (s : List Byte) (c : Byte) : quadDecode o s c = none ↔ s.length < qlen o c := by
  unfold quadDecode
  split <;> simp_all

theorem payCursor_cons (o : CtrlOrder) (c : Byte) (ctl : List Byte) (j : Nat) :
    payCursor o (c :: ctl) (j + 1) = qlen o c + payCursor o ctl j := by
  simp [payCursor]

/-- The first quad starves, or one of the others does on what the first leaves. -/
theorem starves_cons (o : CtrlOrder) (pay : List Byte) (c : Byte) (ctl : List Byte) :
    Starves o pay (c :: ctl) ↔ pay.length < qlen o c ∨ Starves o (pay.drop (qlen o c)) ctl := by
  constructor
  · rintro ⟨j, hj, h⟩
    cases j with
    | zero => exact .inl (by simpa [payCursor] using h)
    | succ j =>
      by_cases hq : pay.length < qlen o c
      · exact .inl hq
      · refine .inr ⟨j, by simpa using hj, ?_⟩
        rw [payCursor_cons] at h
        simp only [List.getD_cons_succ] at h
        rw [List.length_drop]
        omega
  · rintro (h | ⟨j, hj, h⟩)
    · exact ⟨0, by simp, by simpa [payCursor] using h⟩
    · refine ⟨j + 1, by simpa using hj, ?_⟩
      rw [payCursor_cons]
      simp only [List.getD_cons_succ]
      rw [List.length_drop] at h
      omega

/-- The joiner's loop stops exactly where some quad starves, and otherwise delivers four values per control byte. -/
theorem decodeQuads_length (o : CtrlOrder) (diff : Bool) (ctl pay : List Byte) :
    (decodeQuads o diff ctl pay = none ↔ Starves o pay ctl) ∧
    ∀ acc, decodeQuads o diff ctl pay = some acc → acc.length = 4 * ctl.length := by
  induction ctl generalizing pay with
  | nil =>
    refine ⟨by simp [decodeQuads, Starves], ?_⟩
    intro acc h
    cases h
    rfl
  | cons c ctl ih =>
    rw [starves_cons]
    cases hd : quadDecode o pay c with
    | none =>
      have := (quadDecode_none_iff o pay c).mp hd
      simp [decodeQuads, hd, this]
    | some r =>
      obtain ⟨v, n⟩ := r
      have hq := (quadDecode_none_iff o pay c).not.mp (by simp [hd])
      have hn := quadDecode_consumes hd
      subst hn
      obtain ⟨i1, i2⟩ := ih (pay.drop (qlen o c))
      cases hr : decodeQuads o diff ctl (pay.drop (qlen o c)) with
      | none => simp [decodeQuads, hd, hr, i1.mp hr]
      | some acc =>
        have := i2 acc hr
        have hs := i1.not.mp (by simp [hr])
        simp only [decodeQuads, hd, hr]
        refine ⟨by simp [hq, hs], ?_⟩
        intro acc' h
        cases h
        simp [Quad.toList, this]
        omega

/-- A successful `Decompress` has exactly the values the count asks for (R114). -/
theorem decompress_length {o : CtrlOrder} {diff : Bool} {pay ctl : List Byte} {n : Nat} {out : List Word}
    (h : decompress o diff pay ctl n = .ok out) : out.length = n := by
  unfold decompress at h
  split at h
  · cases h
  · rename_i hc
    split at h
    · cases h
    · rename_i acc ha
      cases h
      have hl := (decodeQuads_length o diff ctl pay).2 acc ha
      have := le_four_mul_ceil4 n
      rw [List.length_take, hl]
      omega

/-! ### The framer -/

theorem serialize_length (pay ctl : List Byte) (n : Word) : (serialize pay ctl n).length = 4 + ctl.length + pay.length := by
  simp only [serialize, List.length_append, leBytes_length]

theorem deserialize_some {env : List Byte} (h : 4 + ceil4 (leValue (env.take 4)) ≤ env.length) :
    deserialize env = some (env.drop (4 + ceil4 (leValue (env.take 4))), (env.drop 4).take (ceil4 (leValue (env.take 4))),
      leWord (env.take 4)) := by
  unfold deserialize
  have hw : (leWord (env.take 4)).toNat = leValue (env.take 4) := leWord_toNat _ (by simp)
  rw [if_neg (by omega)]
  simp only [hw]
  rw [if_neg (by omega)]

theorem deserialize_none {env : List Byte} (h : env.length < 4 + ceil4 (leValue (env.take 4))) : deserialize env = none := by
  unfold deserialize
  have hw : (leWord (env.take 4)).toNat = leValue (env.take 4) := leWord_toNat _ (by simp)
  split
  · rfl
  · simp only [hw]
    rw [if_pos h]

/-! ### A host access and a reset -/

/-- A reset adds nothing to what is held. -/
theorem mem_heldAfterReset {epoch i : Nat} {held : List HostAccess} {a : HostAccess}
    (h : a ∈ heldAfterReset epoch i held) : a ∈ held := by
  induction held generalizing i with
  | nil => cases h
  | cons b bs ih =>
    simp only [heldAfterReset] at h
    split at h
    · rcases List.mem_cons.mp h with rfl | h
      · exact List.mem_cons_self
      · exact List.mem_cons_of_mem _ (ih h)
    · exact List.mem_cons_of_mem _ (ih h)

/-- What a register write that goes on can be: a command started, a length written, or a change of `ECOUNT`, `Q` and `CTRLB`
alone (perhaps none). -/
theorem regWrite_cases {s t : State} {r : Reg} {v : Nat} (h : regWrite s r v = .next t) :
    (r = .cmd ∧ v < 256 ∧ t = startCommand (BitVec.ofNat 8 v) s) ∨
    (∃ X, r = .len X ∧ fits (s.cfg.cap X) v = true ∧ t = s.setRegionLen X v) ∨
    (r ≠ .cmd ∧ t = { s with ecount := t.ecount, q := t.q, ctrlb := t.ctrlb }) := by
  cases r with
  | cmd =>
    simp only [regWrite, ifFits] at h
    split at h
    · cases h
      exact .inl ⟨rfl, ‹_›, rfl⟩
    · cases h
  | len X =>
    simp only [regWrite] at h
    split at h
    · cases h
      exact .inr (.inl ⟨X, rfl, ‹_›, rfl⟩)
    · cases h
  | _ =>
    refine .inr (.inr ⟨by simp, ?_⟩)
    simp only [regWrite, ifFits] at h
    first
      | (cases h; rfl)
      | (split at h
         · cases h; rfl
         · cases h)

/-- What a host access that goes on can be: a reply to a read, a register write, or an element written. -/
theorem perform_cases {a : HostAccess} {s t : State} (h : perform a s = .next t) :
    (∃ v, t = { reply s a v with draws := t.draws }) ∨
    (∃ n v, a = .regWrite n v ∧ regWrite s (regOf n) v = .next t) ∨
    (∃ X i v, a = .regionWrite X i v ∧ indexExists (s.cfg.cap X) i = true ∧ v < elemBound X ∧ t = s.writeElem X i v) := by
  cases a with
  | regRead n =>
    cases h
    exact .inl ⟨_, rfl⟩
  | regWrite n v => exact .inr (.inl ⟨n, v, rfl, h⟩)
  | regionRead X i =>
    simp only [perform, regionRead] at h
    split at h
    · cases h
      exact .inl ⟨_, rfl⟩
    · split at h
      · cases h
        exact .inl ⟨_, rfl⟩
      · cases h
  | regionWrite X i v =>
    simp only [perform, regionWrite, ifFits] at h
    split at h
    · split at h
      · cases h
        exact .inr (.inr ⟨X, i, v, rfl, ‹_›, ‹_›, rfl⟩)
      · cases h
    · cases h

end Sys2Proof.Machine
end

