-- ==== Sys2Proof/Laws/PerInstr.lean ====
section
/-! SUPPORT. What holds of every command's byte, command by command (30_encoding.md R65 to R67): a family of statements about
`Instr` as syntax, one lemma per constructor. -/

namespace Sys2Proof.Laws.EncodedByte

/-- The byte of a well-formed command matches the mask and pattern of its row (R66), carries the row's `op` in bits 3:0, and has
bit 7 clear (R65). -/
def Statement (i : Instr) : Prop :=
  i.wellFormed = true →
    encode i &&& (maskMatch i).1 = (maskMatch i).2 ∧ cmdOp (encode i) = cmdOp (maskMatch i).2 ∧ (encode i).getLsbD 7 = false

theorem qenc : Statement .qenc := fun _ => by decide

theorem qdec : Statement .qdec := fun _ => by decide

theorem denc (diff : Bool) (r : Nat) : Statement (.denc diff r) := by
  intro h
  simp only [Instr.wellFormed, Bool.and_eq_true, decide_eq_true_eq] at h
  have hr : r = 1 ∨ r = 2 ∨ r = 3 ∨ r = 4 := by omega
  rcases hr with rfl | rfl | rfl | rfl <;> cases diff <;> decide

theorem ddec (diff : Bool) : Statement (.ddec diff) := fun _ => by cases diff <;> decide

theorem comp (diff : Bool) : Statement (.comp diff) := fun _ => by cases diff <;> decide

theorem decomp (diff : Bool) : Statement (.decomp diff) := fun _ => by cases diff <;> decide

theorem ser : Statement .ser := fun _ => by decide

theorem deser : Statement .deser := fun _ => by decide

theorem compenv (diff : Bool) : Statement (.compenv diff) := fun _ => by cases diff <;> decide

theorem decompenv (diff : Bool) : Statement (.decompenv diff) := fun _ => by cases diff <;> decide

end Sys2Proof.Laws.EncodedByte
end

