-- ==== Sys2Proof/Tests/Slice0.lean ====
section
/-! SUPPORT. Tests of one step each, with results from 95_test_vectors.md; the refused terms; decoding of words written out
from the encoding table; and for every statement with hypotheses a witness that meets them. -/

namespace Sys2Proof.Tests

open Sys2Proof Sys2Proof.Machine

/-! ### Small states -/

/-- An idle instance straight after reset, with capacity `n` for each region. -/
def blank (o : CtrlOrder) (n : Nat) : State :=
  State.resetWith { ctrlOrder := o, seqCap := Fin.ofNat _ n, ctlCap := some n, payCap := some n, envCap := some n }

/-- A region with the given value. -/
def holding {α : Type} (l : List α) : Region α := Region.empty.store l

/-- The quad of V-QENC's third row. -/
def quadState (o : CtrlOrder) (n : Nat) : State := { blank o n with q := ⟨0xFF, 0x100, 0xFFFF, 0x10000⟩, ctrlb := 0x77, nbytes := 7 }

/-- A control byte and a payload, for `QDEC`. -/
def payState (o : CtrlOrder) (c : Byte) (l : List Byte) : State := { blank o 64 with ctrlb := c, pay := holding l, q := ⟨9, 9, 9, 9⟩ }

/-- A sequence, for `COMP` and `COMPENV`. -/
def seqState (o : CtrlOrder) (n : Nat) (l : List Word) : State := { blank o n with seq := holding l }

/-- The three parts of a compressed sequence, for `DECOMP` and `SER`. -/
def partState (o : CtrlOrder) (n : Nat) (pay ctl : List Byte) (e : Word) : State :=
  { blank o n with pay := holding pay, ctl := holding ctl, ecount := e }

/-- An envelope, for `DESER` and `DECOMPENV`. -/
def envState (o : CtrlOrder) (n : Nat) (l : List Byte) : State := { blank o n with env := holding l, ecount := 77 }

/-- A host action comes to an idle block. -/
def hostState (es : List HostEvent) : State := { quadState .msf 64 with inbox := es }

/-- The block runs the command `c` while `es` comes at its interface. -/
def busyState (c : Byte) (es : List HostEvent) : State := { startCommand c (quadState .msf 64) with inbox := es }

/-- Whether the outcome is a next state with a property. -/
def ends (o : Host.Outcome State Fault Refusal) (p : State → Bool) : Bool :=
  match o with
  | .next t => p t
  | .fault _ => false
  | .refused _ => false

/-- The next state of an outcome that has one. -/
def after (o : Host.Outcome State Fault Refusal) : State :=
  match o with
  | .next t => t
  | .fault _ => State.reset
  | .refused _ => State.reset

/-- An outcome that ends in a next state with a property is that next state. -/
theorem eq_after {o : Host.Outcome State Fault Refusal} {p : State → Bool} (h : ends o p = true) :
    o = .next (after o) ∧ p (after o) = true := by
  cases o with
  | next t => exact ⟨rfl, h⟩
  | fault f => cases h
  | refused r => cases h

/-- The outcome is the fault. -/
def faults (o : Host.Outcome State Fault Refusal) (f : Fault) : Bool :=
  match o with
  | .next _ => false
  | .fault g => g = f
  | .refused _ => false

/-- The outcome is the refusal. -/
def refuses (o : Host.Outcome State Fault Refusal) (r : Refusal) : Bool :=
  match o with
  | .next _ => false
  | .fault _ => false
  | .refused q => q = r

/-! ### What is no command -/

/-- WellFormed: a count of 0 cannot be expressed (R70). -/
theorem test_wellFormed_denc_zero : (Instr.denc true 0).wellFormed = false := by decide

/-- WellFormed: nor a count above 4 (R70). -/
theorem test_wellFormed_denc_five : (Instr.denc false 5).wellFormed = false := by decide

/-- V-CMD: the all-zero byte starts nothing. -/
theorem test_decode_zero : decode 0b00000000#8 = .error .noSuchOperation := by decide

/-- V-CMD: `op` 0xB to 0xF, with `diff` 0 and 1. -/
theorem test_decode_no_operation :
    [0x0B#8, 0x0C#8, 0x0D#8, 0x0E#8, 0x0F#8, 0x1B#8, 0x1C#8, 0x1D#8, 0x1E#8, 0x1F#8].all
      (fun c => decide (decode c = .error .noSuchOperation)) = true := by decide

/-- V-CMD: `QENC`, `SER` and `DESER` with `diff = 1`. -/
theorem test_decode_unused_diff : [0x11#8, 0x17#8, 0x18#8].all (fun c => decide (decode c = .error .unusedDiff)) = true := by
  decide

/-- V-CMD: `rm1` not 0 outside `DENC`. -/
theorem test_decode_unused_rm1 :
    [0x21#8, 0x24#8, 0x36#8, 0x7A#8].all (fun c => decide (decode c = .error .unusedRm1)) = true := by decide

/-- V-CMD: bit 7 set. -/
theorem test_decode_reserved : [0x81#8, 0x83#8, 0xFF#8].all (fun c => decide (decode c = .error .reservedBit)) = true := by decide

/-! ### Words written out from the table of R66 -/

/-- `00000001`, `00000010`. -/
theorem test_decode_quad_codec : decode 0b00000001#8 = .ok .qenc ∧ decode 0b00000010#8 = .ok .qdec := by decide

/-- `0rrd0011`, for every `rr` and `d`. -/
theorem test_decode_denc :
    decode 0b00000011#8 = .ok (.denc false 1) ∧ decode 0b00100011#8 = .ok (.denc false 2) ∧
    decode 0b01000011#8 = .ok (.denc false 3) ∧ decode 0b01100011#8 = .ok (.denc false 4) ∧
    decode 0b00010011#8 = .ok (.denc true 1) ∧ decode 0b00110011#8 = .ok (.denc true 2) ∧
    decode 0b01010011#8 = .ok (.denc true 3) ∧ decode 0b01110011#8 = .ok (.denc true 4) := by decide

/-- `000d0100`. -/
theorem test_decode_ddec : decode 0b00000100#8 = .ok (.ddec false) ∧ decode 0b00010100#8 = .ok (.ddec true) := by decide

/-- `000d0101`, `000d0110`. -/
theorem test_decode_stream :
    decode 0b00000101#8 = .ok (.comp false) ∧ decode 0b00010101#8 = .ok (.comp true) ∧
    decode 0b00000110#8 = .ok (.decomp false) ∧ decode 0b00010110#8 = .ok (.decomp true) := by decide

/-- `00000111`, `00001000`, `000d1001`, `000d1010`. -/
theorem test_decode_envelope :
    decode 0b00000111#8 = .ok .ser ∧ decode 0b00001000#8 = .ok .deser ∧
    decode 0b00001001#8 = .ok (.compenv false) ∧ decode 0b00011001#8 = .ok (.compenv true) ∧
    decode 0b00001010#8 = .ok (.decompenv false) ∧ decode 0b00011010#8 = .ok (.decompenv true) := by decide

/-- Encoding: the bytes R101 and R116 write out. -/
theorem test_encode : encode (.denc true 2) = 0x33#8 ∧ encode (.denc false 4) = 0x63#8 ∧ encode (.decomp true) = 0x16#8 := by decide

/-- A table word is the command's one byte; an illegal one is refused. -/
theorem test_table_word : decodeTableWord 8 0x19 = some (.compenv true) ∧ decodeTableWord 8 0x21 = none := by decide

/-! ### Operands -/

/-- V-KLEN, the boundaries. -/
theorem test_klen :
    klen 0#32 = 1 ∧ klen 255#32 = 1 ∧ klen 256#32 = 2 ∧ klen 65535#32 = 2 ∧ klen 65536#32 = 3 ∧ klen 16777215#32 = 3 ∧
    klen 16777216#32 = 4 ∧ klen 0xFFFFFFFF#32 = 4 := by decide

/-- V-CTRL, the row `2, 1, 3, 4` and the palindrome `2, 3, 3, 2`. -/
theorem test_control_byte :
    mkctrl .msf 1 0 2 3 = 0x4B#8 ∧ mkctrl .lsf 1 0 2 3 = 0xE1#8 ∧ qlen .msf 0x4B#8 = 10 ∧
    mkctrl .msf 1 2 2 1 = 0x69#8 ∧ mkctrl .lsf 1 2 2 1 = 0x69#8 := by decide

/-- R62's table: `11 10 01 00` from bit 7 down, slot by slot. -/
theorem test_field_positions :
    [0, 1, 2, 3].map (fun i => field .msf 0b11100100#8 i) = [3, 2, 1, 0] ∧
    [0, 1, 2, 3].map (fun i => field .lsf 0b11100100#8 i) = [0, 1, 2, 3] := by decide

/-! ### The commands: at most two tests each -/

/-- V-QENC, third row, `MSF`. -/
theorem test_qenc : ends (exec .qenc (quadState .msf 64)) (fun t =>
    t.payVal == [0xFF, 0x00, 0x01, 0xFF, 0xFF, 0x00, 0x00, 0x01] && t.ctrlb == 0x16 && t.nbytes == 8 && t.status == 0x02) = true := by
  decide

/-- V-QENC, third row, `LSF`, and its error vector with one byte too few: the registers keep their values. -/
theorem test_qenc_overflow :
    ends (exec .qenc (quadState .lsf 8)) (fun t => t.ctrlb == 0x94) = true ∧
    ends (exec .qenc (quadState .lsf 7)) (fun t =>
      t.payVal == [] && t.ctrlb == 0x77 && t.nbytes == 7 && t.status == 0x12) = true := by decide

/-- V-QDEC, control byte `0x1B` under both orders. -/
theorem test_qdec :
    ends (exec .qdec (payState .msf 0x1B [1, 2, 3, 4, 5, 6, 7, 8, 9, 10])) (fun t =>
      t.q == ⟨0x01, 0x0302, 0x060504, 0x0A090807⟩ && t.nbytes == 10 && t.status == 0x02) = true ∧
    ends (exec .qdec (payState .lsf 0x1B [1, 2, 3, 4, 5, 6, 7, 8, 9, 10])) (fun t =>
      t.q == ⟨0x04030201, 0x070605, 0x0908, 0x0A⟩) = true := by decide

/-- V-QDEC, one byte short: `Q` is unchanged. -/
theorem test_qdec_truncated : ends (exec .qdec (payState .msf 0x69 [1, 2, 3, 4, 5, 6, 7, 8, 9])) (fun t =>
    t.q == ⟨9, 9, 9, 9⟩ && t.status == 0x06) = true := by decide

/-- V-DENC: the wrapping row, and `r = 2`. -/
theorem test_denc :
    ends (exec (.denc true 4) { blank .msf 64 with q := ⟨5, 3, 0xFFFFFFFF, 0⟩ }) (fun t =>
      t.q == ⟨5, 0xFFFFFFFE, 0xFFFFFFFC, 1⟩) = true ∧
    ends (exec (.denc true 2) { blank .msf 64 with q := ⟨10, 20, 0xDEAD, 0xBEEF⟩ }) (fun t => t.q == ⟨10, 10, 0, 0⟩) = true := by
  decide

/-- V-DENC: `diff = 0` is the identity, padding included. -/
theorem test_denc_off : ends (exec (.denc false 2) { blank .msf 64 with q := ⟨10, 20, 0xDEAD, 0xBEEF⟩ }) (fun t =>
    t.q == ⟨10, 20, 0xDEAD, 0xBEEF⟩ && t.status == 0x02) = true := by decide

/-- V-DDEC: running sums that wrap. -/
theorem test_ddec : ends (exec (.ddec true) { blank .msf 64 with q := ⟨5, 0xFFFFFFFE, 0xFFFFFFFC, 1⟩ }) (fun t =>
    t.q == ⟨5, 3, 0xFFFFFFFF, 0⟩ && t.status == 0x02) = true := by decide

/-- V-DDEC: `diff = 0` is the identity. -/
theorem test_ddec_off : ends (exec (.ddec false) { blank .msf 64 with q := ⟨5, 0xFFFFFFFE, 0xFFFFFFFC, 1⟩ }) (fun t =>
    t.q == ⟨5, 0xFFFFFFFE, 0xFFFFFFFC, 1⟩) = true := by decide

/-- V-COMP-1, `N = 5`, `diff = 1`, `MSF`: the delta chain restarts at the second quad. -/
theorem test_comp : ends (exec (.comp true) (seqState .msf 64 [7, 300, 70000, 16777216, 5])) (fun t =>
    t.ctlVal == [0x1A, 0x00] && t.payVal == [0x07, 0x25, 0x01, 0x44, 0x10, 0x01, 0x90, 0xEE, 0xFE, 0x05, 0x00, 0x00, 0x00] &&
    t.ecount == 5 && t.status == 0x02) = true := by decide

/-- V-COMP-1, `N = 2`, `diff = 0`, `LSF`: the splitter pads whatever `diff` is; S5 step 3: too small a `PAY`. -/
theorem test_comp_padding :
    ends (exec (.comp false) (seqState .lsf 64 [7, 300])) (fun t =>
      t.ctlVal == [0x54] && t.payVal == [0x07, 0x2C, 0x01, 0x2C, 0x01, 0x2C, 0x01] && t.ecount == 2) = true ∧
    ends (exec (.comp true) (seqState .lsf 8 [1, 2, 3, 4, 5, 6, 6, 8])) (fun t => t.payVal == [1, 1, 1, 1, 5, 1, 0, 2]) = true ∧
    ends (exec (.comp true) (seqState .lsf 7 [1, 2, 3, 4, 5, 6, 6, 8])) (fun t =>
      t.status == 0x12 && t.payVal == [] && t.ctlVal == [] && t.ecount == 0) = true := by decide

/-- The payload and control bytes of V-DECOMP-1. -/
def vDecomp (n : Nat) (e : Word) : State :=
  partState .msf n [0x07, 0x25, 0x01, 0x44, 0x10, 0x01, 0x90, 0xEE, 0xFE, 0x05, 0x00, 0x00, 0x00] [0x1A, 0x00] e

/-- V-DECOMP-1: the right count, a count too large inside the same quad, and one beyond it. -/
theorem test_decomp :
    ends (exec (.decomp true) (vDecomp 64 5)) (fun t => t.seqVal == [7, 300, 70000, 16777216, 5] && t.status == 0x02) = true ∧
    ends (exec (.decomp true) (vDecomp 64 6)) (fun t => t.seqVal == [7, 300, 70000, 16777216, 5, 5] && t.status == 0x02) = true ∧
    ends (exec (.decomp true) (vDecomp 64 9)) (fun t => t.seqVal == [] && t.status == 0x0A) = true := by decide

/-- V-DECOMP-1: mismatched `diff`; a starving quad; a mismatch that comes before truncation; no room in `SEQ`. -/
theorem test_decomp_edges :
    ends (exec (.decomp false) (vDecomp 64 5)) (fun t => t.seqVal == [7, 293, 69700, 16707216, 5] && t.status == 0x02) = true ∧
    ends (exec (.decomp true) { vDecomp 64 5 with pay := { (vDecomp 64 5).pay with len := 12 } }) (fun t =>
      t.seqVal == [] && t.status == 0x06) = true ∧
    ends (exec (.decomp true) (partState .msf 64 [7, 0x25, 1] [0x1A] 5)) (fun t => t.status == 0x0A) = true ∧
    ends (exec (.decomp true) (vDecomp 4 5)) (fun t => t.seqVal == [] && t.status == 0x12) = true := by decide

/-- V-SER: little-endian count, no consistency check. -/
theorem test_ser :
    ends (exec .ser (partState .msf 64 [] [] 0x01020304)) (fun t => t.envVal == [0x04, 0x03, 0x02, 0x01]) = true ∧
    ends (exec .ser (partState .msf 64 [0xBB, 0xCC] [0xAA] 0xFFFFFFFF)) (fun t =>
      t.envVal == [0xFF, 0xFF, 0xFF, 0xFF, 0xAA, 0xBB, 0xCC] && t.status == 0x02) = true := by decide

/-- V-SER: the error vector, one byte too few. -/
theorem test_ser_overflow : ends (exec .ser (partState .msf 18 [1, 1, 1, 1, 5, 1, 0, 2, 10, 0, 0, 0] [0, 0, 0] 9)) (fun t =>
    t.envVal == [] && t.status == 0x12) = true := by decide

/-- V-DESER: trailing bytes become payload. -/
theorem test_deser :
    ends (exec .deser (envState .msf 64 [0x00, 0x00, 0x00, 0x00, 0xAA, 0xBB])) (fun t =>
      t.ecount == 0 && t.ctlVal == [] && t.payVal == [0xAA, 0xBB] && t.status == 0x02) = true ∧
    ends (exec .deser (envState .msf 64 [0x01, 0x00, 0x00, 0x00, 0x00])) (fun t =>
      t.ecount == 1 && t.ctlVal == [0x00] && t.payVal == []) = true := by decide

/-- V-DESER: the row that a wrapping `ceil4` would get wrong, and a count's byte missing: `ECOUNT` is unchanged. -/
theorem test_deser_truncated :
    ends (exec .deser (envState .msf 64 [0xFF, 0xFF, 0xFF, 0xFF, 0x00, 0x00, 0x00, 0x00])) (fun t =>
      t.ecount == 77 && t.status == 0x06) = true ∧
    ends (exec .deser (envState .msf 64 [0x09, 0x00, 0x00])) (fun t => t.ecount == 77 && t.status == 0x06) = true := by decide

/-- E1: the source's scenario through `COMPENV`. -/
theorem test_compenv : ends (exec (.compenv true) (seqState .msf 64 [1, 2, 3, 4, 5, 6, 6, 8, 10])) (fun t =>
    t.envVal == [9, 0, 0, 0, 0, 0, 0, 1, 1, 1, 1, 5, 1, 0, 2, 10, 0, 0, 0] && t.ecount == 9 && t.ctlVal == [0, 0, 0] &&
    t.status == 0x02) = true := by decide

/-- S5 step 5, with one byte too few in `ENV`: the parts stay written, only `ENV` is emptied. -/
theorem test_compenv_second_stage : ends (exec (.compenv false) (seqState .lsf 13 [1, 2, 3, 4, 5, 6, 6, 8])) (fun t =>
    t.envVal == [] && t.ecount == 8 && t.payVal == [1, 2, 3, 4, 5, 6, 6, 8] && t.ctlVal == [0, 0] && t.status == 0x12) = true := by
  decide

/-- V-ENV: the whole envelope of five values. -/
theorem test_decompenv : ends (exec (.decompenv true) (envState .msf 64
    [0x05, 0, 0, 0, 0x1A, 0x00, 0x07, 0x25, 0x01, 0x44, 0x10, 0x01, 0x90, 0xEE, 0xFE, 0x05, 0, 0, 0])) (fun t =>
    t.seqVal == [7, 300, 70000, 16777216, 5] && t.ecount == 5 && t.ctlVal == [0x1A, 0x00] && t.status == 0x02) = true := by decide

/-- E2: cut by one byte; S5 step 6: too many control bytes for `CTL`, so the first stage fails. -/
theorem test_decompenv_errors :
    ends (exec (.decompenv true) (envState .msf 64
      [9, 0, 0, 0, 0, 0, 0, 1, 1, 1, 1, 5, 1, 0, 2, 10, 0, 0])) (fun t =>
      t.status == 0x06 && t.seqVal == [] && t.ecount == 9 && t.payVal == [1, 1, 1, 1, 5, 1, 0, 2, 10, 0, 0]) = true ∧
    ends (exec (.decompenv false) (envState .lsf 4 [0x11, 0, 0, 0, 0, 0, 0, 0, 0])) (fun t =>
      t.status == 0x12 && t.seqVal == [] && t.ctlVal == [] && t.ecount == 77) = true := by decide

/-! ### Steps and the host interface (V-HOST) -/

/-- A write of `CMD` makes an idle block busy, with `err` 0. -/
theorem test_step_accepts : ends (step (hostState [.access (.regWrite 0x00 0x01)])) (fun t =>
    t.status == 0x01 && t.cmdr == 0x01 && t.payVal == []) = true := by decide

/-- An illegal byte: `STATUS` 0x0E and nothing else. -/
theorem test_step_illegal : ends (step (busyState 0x36 [.elapse])) (fun t =>
    t.status == 0x0E && decide (t = { busyState 0x36 [] with status := 0x0E#8 })) = true := by decide

/-- A write while busy is held; the command then completes; the held write takes effect. -/
theorem test_step_held :
    ends (step (busyState 0x01 [.access (.regWrite 0x04 5)])) (fun t => t.q.v0 == 0xFF && t.held == [.regWrite 0x04 5]) = true ∧
    ends (step { quadState .msf 64 with held := [.regWrite 0x04 5] }) (fun t => t.q.v0 == 5 && t.held == []) = true := by decide

/-- `STATUS` is served while busy, and reads 0x01. -/
theorem test_step_status_while_busy : ends (step (busyState 0x01 [.access (.regRead 0x01)])) (fun t =>
    t.replies == [(.regRead 0x01, 1)] && t.status == 0x01) = true := by decide

/-- A reset abandons a running command. -/
theorem test_step_reset : ends (step (busyState 0x01 [.reset])) (fun t =>
    t.status == 0x00 && t.q == ⟨0, 0, 0, 0⟩ && t.payVal == [] && t.cfg == (blank .msf 64).cfg) = true := by decide

/-- A step runs the command placed for it as the first one after reset: V-ENV and R182. -/
theorem test_step_first_after_reset : ends (step (State.reset.withFetchWord 8 0x19)) (fun t =>
    t.status == 0x02 && t.envVal == [0, 0, 0, 0]) = true := by decide

/-- Writes of `STATUS`, `CFG`, `NBYTES` and a reserved number are ignored. -/
theorem test_host_ignored_writes :
    ([0x01, 0x02, 0x09, 0x0E, 0x3F] : List (Fin 64)).all
      (fun n => ends (perform (.regWrite n 0xFF) (quadState .lsf 8)) (fun t => decide (t = quadState .lsf 8))) = true := by decide

/-- `CFG` tells the order; `CMD` and a reserved number read 0. -/
theorem test_host_reads :
    regValue (blank .lsf 8) (regOf 0x02) = 1 ∧ regValue (blank .msf 8) (regOf 0x02) = 0 ∧
    regValue (busyState 0x01 []) (regOf 0x00) = 0 ∧ regValue (busyState 0x01 []) (regOf 0x3F) = 0 := by decide

/-- R18's map: each number reads its own register, all of them different here. -/
theorem test_host_register_numbers :
    ([0x03, 0x04, 0x05, 0x06, 0x07, 0x08, 0x09, 0x0A, 0x0B, 0x0C, 0x0D] : List (Fin 64)).map (fun n => regValue
      { blank .msf 64 with ecount := 9, q := ⟨10, 11, 12, 13⟩, ctrlb := 14, nbytes := 15, seq := holding [1], ctl := holding [1, 2],
                           pay := holding [1, 2, 3], env := holding [1, 2, 3, 4] } (regOf n)) =
      [9, 10, 11, 12, 13, 14, 15, 1, 2, 3, 4] := by decide

/-- The edge of a region of capacity 8: index 7 exists, index 8 does not; a length of 8 is allowed, 9 is not. -/
theorem test_host_capacity :
    ends (perform (.regionWrite .pay 7 0xAB) (blank .msf 8)) (fun t => t.readElem .pay 7 == 0xAB && t.pay.len == 0) = true ∧
    refuses (perform (.regionWrite .pay 8 0xAB) (blank .msf 8)) .writeBeyondCapacity = true ∧
    faults (perform (.regionRead .pay 8) (blank .msf 8)) .noSuchElement = true ∧
    ends (perform (.regWrite 0x0C 8) (blank .msf 8)) (fun t => t.pay.len == 8) = true ∧
    refuses (perform (.regWrite 0x0C 9) (blank .msf 8)) .lengthAboveCapacity = true := by decide

/-- A value wider than the register or element is refused. -/
theorem test_host_too_wide :
    refuses (perform (.regWrite 0x08 256) (blank .msf 8)) .valueTooWide = true ∧
    refuses (perform (.regionWrite .ctl 0 256) (blank .msf 8)) .valueTooWide = true := by decide

/-! ### Witnesses: states and operands that meet all hypotheses of a statement together, at the edges of its clauses -/

/-- DecodeEncodeRoundTrip: the counts 1 and 4; the last legal byte. -/
theorem witness_DecodeEncodeRoundTrip :
    (Instr.denc true 4).wellFormed = true ∧ (Instr.denc false 1).wellFormed = true ∧ decode 0x73#8 = .ok (.denc true 4) := by decide

/-- KlenIsTheMinimalByteCount: the largest value of one byte, the smallest of two, the largest of all. -/
theorem witness_KlenIsTheMinimalByteCount :
    (1 ≤ 1 ∧ 1 ≤ 4 ∧ (255#32).toNat < 256 ^ 1) ∧ (1 ≤ 2 ∧ 2 ≤ 4 ∧ (256#32).toNat < 256 ^ 2) ∧
    (1 ≤ 4 ∧ 4 ≤ 4 ∧ (0xFFFFFFFF#32).toNat < 256 ^ 4) := by decide

/-- StoredValueComesBack: `k = 2` at its largest value, `k = 4`, and `k = 0`. -/
theorem witness_StoredValueComesBack :
    (2 ≤ 4 ∧ 1 < 2 ∧ (65535#32).toNat < 256 ^ 2) ∧ (4 ≤ 4 ∧ 3 < 4 ∧ (0xFFFFFFFF#32).toNat < 256 ^ 4) ∧
    (0 ≤ 4 ∧ (0#32).toNat < 256 ^ 0) := by decide

/-- QuadDecodeReadsOnlyItsBytes: exactly `qlen` bytes, and one fewer. -/
theorem witness_QuadDecodeReadsOnlyItsBytes :
    qlen .msf 0x69#8 ≤ [1#8, 2, 3, 4, 5, 6, 7, 8, 9, 10].length ∧ [1#8, 2, 3, 4, 5, 6, 7, 8, 9].length < qlen .msf 0x69#8 := by
  decide

/-- QencResult: the quad fills `PAY` exactly. -/
theorem witness_QencResult :
    fits ((quadState .msf 8).cfg.cap .pay) (klen 0xFF#32 + klen 0x100#32 + klen 0xFFFF#32 + klen 0x10000#32) = true := by decide

/-- QdecResult: `PAY` holds exactly `qlen` bytes. -/
theorem witness_QdecResult :
    (∀ i : Fin 4, slotLen .msf (payState .msf 0x1B [1, 2, 3, 4, 5, 6, 7, 8, 9, 10]).ctrlb i = i.val + 1) ∧
    1 + 2 + 3 + 4 ≤ (payState .msf 0x1B [1, 2, 3, 4, 5, 6, 7, 8, 9, 10]).pay.len := by decide

/-- DencResult: `r = 1`, whose padded quad repeats slot 0, and `r = 4`, whose padded quad is the quad. -/
theorem witness_DencResult :
    (1 ≤ 1 ∧ 1 ≤ 4 ∧
      (∀ i : Fin 4, i.val < 1 → (quadState .msf 8).q.v0 = (quadState .msf 8).q.slot i) ∧
      (∀ i k : Fin 4, 1 ≤ i.val → k.val = 1 - 1 → (quadState .msf 8).q.v0 = (quadState .msf 8).q.slot k)) ∧
    (1 ≤ 4 ∧ 4 ≤ 4 ∧
      (∀ i : Fin 4, i.val < 4 → (quadState .msf 8).q.slot i = (quadState .msf 8).q.slot i) ∧
      (∀ i k : Fin 4, 4 ≤ i.val → k.val = 4 - 1 → (quadState .msf 8).q.slot i = (quadState .msf 8).q.slot k)) := by decide

/-- DeltaInverseUndoesForward: slot 0 for `r = 1`, slot 2 for `r = 3`. -/
theorem witness_DeltaInverseUndoesForward : (0 : Fin 4).val < 1 ∧ (2 : Fin 4).val < 3 := by decide

/-- PaddingRepeatsTheLastValue: the first and the last padded slot. -/
theorem witness_PaddingRepeatsTheLastValue :
    (1 ≤ 1 ∧ 1 ≤ 4 ∧ 1 ≤ (1 : Fin 4).val ∧ (0 : Fin 4).val = 1 - 1) ∧
    (1 ≤ 3 ∧ 3 ≤ 4 ∧ 3 ≤ (3 : Fin 4).val ∧ (2 : Fin 4).val = 3 - 1) := by decide

/-- DecreaseGivesAWrappedDelta: the least decrease, the largest of the second clause, and the largest of all, at each pair of
neighbours. -/
theorem witness_DecreaseGivesAWrappedDelta :
    ((1 : Fin 4).val = (0 : Fin 4).val + 1 ∧ 0 < 1 ∧ ((Quad.mk 5 4 0 0).slot 0).toNat = ((Quad.mk 5 4 0 0).slot 1).toNat + 1 ∧
      1 ≤ 2 ^ 32 - 2 ^ 24) ∧
    ((2 : Fin 4).val = (1 : Fin 4).val + 1 ∧ 0 < 4278190080 ∧
      ((Quad.mk 0 4278190080 0 0).slot 1).toNat = ((Quad.mk 0 4278190080 0 0).slot 2).toNat + 4278190080 ∧
      4278190080 ≤ 2 ^ 32 - 2 ^ 24) ∧
    ((3 : Fin 4).val = (2 : Fin 4).val + 1 ∧ 0 < 4294967295 ∧
      ((Quad.mk 0 0 4294967295 0).slot 2).toNat = ((Quad.mk 0 0 4294967295 0).slot 3).toNat + 4294967295) := by decide

/-- SplitIntoPaddedQuads: the last quad of five values. -/
theorem witness_SplitIntoPaddedQuads : 1 < ceil4 [7#32, 300, 70000, 16777216, 5].length := by decide

/-- QuadsCompressIndependently: no whole quad, and one. -/
theorem witness_QuadsCompressIndependently : ([] : List Word).length % 4 = 0 ∧ [1#32, 2, 3, 4].length % 4 = 0 := by decide

/-- The outputs of V-COMP-1, `N = 5`, `diff = 1` fill a capacity of 13 exactly. -/
theorem witness_CompResult :
    (seqState .msf 13 [7, 300, 70000, 16777216, 5]).seq.len < 2 ^ 32 ∧
    fits ((seqState .msf 13 [7, 300, 70000, 16777216, 5]).cfg.cap .pay)
      (compress .msf true (seqState .msf 13 [7, 300, 70000, 16777216, 5]).seqVal).1.length = true ∧
    fits ((seqState .msf 13 [7, 300, 70000, 16777216, 5]).cfg.cap .ctl)
      (ceil4 (seqState .msf 13 [7, 300, 70000, 16777216, 5]).seq.len) = true := by decide

/-- V-DECOMP-1 does not starve: its two quads take all 13 bytes. -/
theorem vDecomp_feeds (n : Nat) (e : Word) : ¬ Starves .msf (vDecomp n e).payVal (vDecomp n e).ctlVal := by
  have hp : (vDecomp n e).payVal = [0x07, 0x25, 0x01, 0x44, 0x10, 0x01, 0x90, 0xEE, 0xFE, 0x05, 0x00, 0x00, 0x00] :=
    values_store _ _ _
  have hc : (vDecomp n e).ctlVal = [0x1A, 0x00] := values_store _ _ _
  rw [hp, hc]
  unfold Starves
  decide

/-- DecompResult: `ECOUNT` at both ends of the second quad, and the last element asked for. -/
theorem witness_DecompResult :
    ((vDecomp 64 5).ctl.len = ceil4 (vDecomp 64 5).ecount.toNat ∧ ¬ Starves .msf (vDecomp 64 5).payVal (vDecomp 64 5).ctlVal ∧
      fits ((vDecomp 64 5).cfg.cap .seq) (vDecomp 64 5).ecount.toNat = true ∧ 4 * 1 + (0 : Fin 4).val < (vDecomp 64 5).ecount.toNat) ∧
    ((vDecomp 8 8).ctl.len = ceil4 (vDecomp 8 8).ecount.toNat ∧ ¬ Starves .msf (vDecomp 8 8).payVal (vDecomp 8 8).ctlVal ∧
      fits ((vDecomp 8 8).cfg.cap .seq) (vDecomp 8 8).ecount.toNat = true ∧ 4 * 1 + (3 : Fin 4).val < (vDecomp 8 8).ecount.toNat) :=
  ⟨⟨by decide, vDecomp_feeds 64 5, by decide, by decide⟩, ⟨by decide, vDecomp_feeds 8 8, by decide, by decide⟩⟩

/-- Whatever property a test finds of a next state, that next state is the outcome. -/
theorem next_of {o : Host.Outcome State Fault Refusal} (p : State → Bool) (h : ends o p = true) :
    ∃ t, o = .next t ∧ p t = true := ⟨after o, eq_after h⟩

/-- DecompRestoresWhatCompRead: `COMP` on five values, and the state it leaves. -/
theorem witness_DecompRestoresWhatCompRead :
    (seqState .msf 64 [7, 300, 70000, 16777216, 5]).seq.len ≤ (seqState .msf 64 [7, 300, 70000, 16777216, 5]).cfg.seqCap.val ∧
    ∃ t, exec (.comp true) (seqState .msf 64 [7, 300, 70000, 16777216, 5]) = .next t ∧
      decide (t.errPin = 0#3 ∧ t.cfg = (seqState .msf 64 [7, 300, 70000, 16777216, 5]).cfg) = true :=
  ⟨by decide, next_of _ (by decide)⟩

/-- CountTrustedWithinItsQuad: 5 values, and the counts 6 and 8 of the same quad. -/
theorem witness_CountTrustedWithinItsQuad :
    (∃ t, exec (.decomp true) (vDecomp 8 5) = .next t ∧ decide (t.errPin = 0#3) = true) ∧
    (ceil4 (6#32).toNat = ceil4 (vDecomp 8 5).ecount.toNat ∧ fits ((vDecomp 8 5).cfg.cap .seq) (6#32).toNat = true) ∧
    (ceil4 (8#32).toNat = ceil4 (vDecomp 8 5).ecount.toNat ∧ fits ((vDecomp 8 5).cfg.cap .seq) (8#32).toNat = true) ∧
    4 < (8#32).toNat ∧ 4 < (vDecomp 8 5).ecount.toNat :=
  ⟨next_of _ (by decide), by decide, by decide, by decide, by decide⟩

/-- DiffMismatchIsNotNoticed: both values of `diff` run on the same parts. -/
theorem witness_DiffMismatchIsNotNoticed :
    (∃ t, exec (.decomp true) (vDecomp 8 5) = .next t ∧ true = true) ∧ (∃ u, exec (.decomp false) (vDecomp 8 5) = .next u ∧ true = true) :=
  ⟨next_of (fun _ => true) (by decide), next_of (fun _ => true) (by decide)⟩

/-- FramingInverse: the shortest envelope parses. -/
theorem witness_FramingInverse : deserialize [0, 0, 0, 0] = some ([], [], 0#32) ∧
    deserialize [1, 0, 0, 0, 0x40, 9] = some ([9], [0x40], 1#32) := by decide

/-- SerResult: the envelope fills `ENV` exactly. -/
theorem witness_SerResult : fits ((partState .msf 7 [0xBB, 0xCC] [0xAA] 0xFFFFFFFF).cfg.cap .env)
    (4 + (partState .msf 7 [0xBB, 0xCC] [0xAA] 0xFFFFFFFF).ctl.len + (partState .msf 7 [0xBB, 0xCC] [0xAA] 0xFFFFFFFF).pay.len) = true := by
  decide

/-- DeserResult: an envelope of exactly `4 + C` bytes, and one with a payload. -/
theorem witness_DeserResult : ∀ s ∈ [envState .msf 8 [1, 0, 0, 0, 0], envState .msf 8 [1, 0, 0, 0, 0, 5, 0, 0]],
    4 + ceil4 (leValue (s.envVal.take 4)) ≤ s.env.len ∧ fits (s.cfg.cap .ctl) (ceil4 (leValue (s.envVal.take 4))) = true ∧
    fits (s.cfg.cap .pay) (s.env.len - 4 - ceil4 (leValue (s.envVal.take 4))) = true := by decide

/-- CompenvIsCompThenSer: a first stage that succeeds, and one that fails. -/
theorem witness_CompenvIsCompThenSer :
    (∃ t, exec (.comp true) (seqState .msf 64 [1, 2]) = .next t ∧ decide (t.errPin = 0#3) = true) ∧
    (∃ t, exec (.comp true) (seqState .msf 3 [1, 2]) = .next t ∧ decide (t.errPin ≠ 0#3) = true) :=
  ⟨next_of _ (by decide), next_of _ (by decide)⟩

/-- DecompenvIsDeserThenDecomp: a first stage that succeeds, and one that fails. -/
theorem witness_DecompenvIsDeserThenDecomp :
    (∃ t, exec .deser (envState .msf 64 [0, 0, 0, 0]) = .next t ∧ decide (t.errPin = 0#3) = true) ∧
    (∃ t, exec .deser (envState .msf 64 [0, 0, 0]) = .next t ∧ decide (t.errPin ≠ 0#3) = true) :=
  ⟨next_of _ (by decide), next_of _ (by decide)⟩

/-- CompenvResult: the envelope of one value fills `ENV` exactly. -/
theorem witness_CompenvResult :
    (seqState .msf 9 [7]).seq.len < 2 ^ 32 ∧
    fits ((seqState .msf 9 [7]).cfg.cap .pay) (compress .msf true (seqState .msf 9 [7]).seqVal).1.length = true ∧
    fits ((seqState .msf 9 [7]).cfg.cap .ctl) (ceil4 (seqState .msf 9 [7]).seq.len) = true ∧
    fits ((seqState .msf 9 [7]).cfg.cap .env)
      (4 + ceil4 (seqState .msf 9 [7]).seq.len + (compress .msf true (seqState .msf 9 [7]).seqVal).1.length) = true := by decide

/-- DecompenvResult: the envelope of one value. -/
theorem witness_DecompenvResult :
    deserialize (envState .msf 9 [1, 0, 0, 0, 0, 7, 0, 0, 0]).envVal = some ([7, 0, 0, 0], [0], 1#32) ∧
    ((decompress .msf true [7, 0, 0, 0] [0] (1#32).toNat).toOption = some [7#32]) ∧
    fits ((envState .msf 9 [1, 0, 0, 0, 0, 7, 0, 0, 0]).cfg.cap .ctl) [0#8].length = true ∧
    fits ((envState .msf 9 [1, 0, 0, 0, 0, 7, 0, 0, 0]).cfg.cap .pay) [7#8, 0, 0, 0].length = true ∧
    fits ((envState .msf 9 [1, 0, 0, 0, 0, 7, 0, 0, 0]).cfg.cap .seq) (1#32).toNat = true := by decide

/-- EnvelopeRoundTrip, TruncatedEnvelopeIsRejected: `COMPENV` on one value, the envelope it leaves in another state, and its
prefixes of 0 and 8 bytes. -/
theorem witness_EnvelopeRoundTrip :
    (seqState .msf 9 [7]).seq.len ≤ (seqState .msf 9 [7]).cfg.seqCap.val ∧
    ∃ t, exec (.compenv true) (seqState .msf 9 [7]) = .next t ∧ decide (t.errPin = 0#3 ∧
      (envState .msf 9 [1, 0, 0, 0, 0, 7, 0, 0, 0]).cfg = (seqState .msf 9 [7]).cfg ∧
      (envState .msf 9 [1, 0, 0, 0, 0, 7, 0, 0, 0]).envVal = t.envVal) = true :=
  ⟨by decide, next_of _ (by decide)⟩

theorem witness_TruncatedEnvelopeIsRejected :
    (seqState .msf 9 [7]).seq.len ≤ (seqState .msf 9 [7]).cfg.seqCap.val ∧
    ∃ t, exec (.compenv true) (seqState .msf 9 [7]) = .next t ∧ decide (t.errPin = 0#3 ∧
      (8 < t.envVal.length ∧ (envState .msf 9 [1, 0, 0, 0, 0, 7, 0, 0]).envVal = t.envVal.take 8) ∧
      (0 < t.envVal.length ∧ (envState .msf 9 []).envVal = t.envVal.take 0)) = true :=
  ⟨by decide, next_of _ (by decide)⟩

/-- TruncatedInputExactly: each command, at the edge of truncation and with one byte fewer. -/
theorem witness_TruncatedInputExactly :
    (∃ t, exec .qdec (payState .msf 0 [1, 2, 3, 4]) = .next t ∧ decide (t.errPin = 0#3) = true) ∧
    (∃ t, exec .qdec (payState .msf 0 [1, 2, 3]) = .next t ∧ decide (t.errPin = 1#3) = true) ∧
    (∃ t, exec (.decomp true) (partState .msf 8 [1, 2, 3] [0] 1) = .next t ∧ decide (t.errPin = 1#3) = true) ∧
    (∃ t, exec .deser (envState .msf 8 [1, 0, 0, 0]) = .next t ∧ decide (t.errPin = 1#3) = true) ∧
    ((∃ t, exec .deser (envState .msf 8 [1, 0, 0, 0, 0, 1, 2, 3]) = .next t ∧ decide (t.errPin = 0#3) = true) ∧
      (∃ u, exec (.decompenv true) (envState .msf 8 [1, 0, 0, 0, 0, 1, 2, 3]) = .next u ∧ decide (u.errPin = 1#3) = true)) :=
  ⟨next_of _ (by decide), next_of _ (by decide), next_of _ (by decide), next_of _ (by decide), next_of _ (by decide),
    next_of _ (by decide)⟩

/-- CountMismatchExactly: a control byte too few and one too many; another command. -/
theorem witness_CountMismatchExactly :
    (∃ t, exec (.decomp true) (partState .msf 8 [1, 2, 3, 4] [0] 5) = .next t ∧ decide (t.errPin = 2#3) = true) ∧
    (∃ t, exec (.decomp true) (partState .msf 8 [1, 2, 3, 4] [0] 0) = .next t ∧ decide (t.errPin = 2#3) = true) ∧
    (∀ diff, Instr.ser ≠ .decomp diff) ∧
    (∃ t, exec .ser (partState .msf 9 [1, 2, 3, 4] [0] 5) = .next t ∧ decide (t.errPin = 0#3) = true) :=
  ⟨next_of _ (by decide), next_of _ (by decide), by decide, next_of _ (by decide)⟩

/-- RegionOverflowExactly, NoOutputOnFailure: each command that can overflow, with one place too few. -/
theorem witness_RegionOverflowExactly :
    (∃ t, exec .qenc (quadState .msf 7) = .next t ∧ decide (t.errPin = 4#3) = true) ∧
    (∃ t, exec (.comp true) (seqState .msf 3 [7]) = .next t ∧ decide (t.errPin = 4#3) = true) ∧
    (∃ t, exec (.decomp true) (vDecomp 4 5) = .next t ∧ decide (t.errPin = 4#3) = true) ∧
    (∃ t, exec .ser (partState .msf 3 [] [] 0) = .next t ∧ decide (t.errPin = 4#3) = true) ∧
    (∃ t, exec .deser (envState .msf 0 [1, 0, 0, 0, 0]) = .next t ∧ decide (t.errPin = 4#3) = true) :=
  ⟨next_of _ (by decide), next_of _ (by decide), next_of _ (by decide), next_of _ (by decide), next_of _ (by decide)⟩

/-- RegionOverflowExactly, the composite commands: the first stage fits and the second does not. -/
theorem witness_RegionOverflowExactly_composites :
    ((∃ t, exec (.comp true) (seqState .msf 8 [7]) = .next t ∧ decide (t.errPin = 0#3) = true) ∧
      (∃ u, exec (.compenv true) (seqState .msf 8 [7]) = .next u ∧ decide (u.errPin = 4#3) = true)) ∧
    ((∃ t, exec .deser (envState .msf 4 [5, 0, 0, 0, 0, 0, 1, 2, 3, 4]) = .next t ∧ decide (t.errPin = 0#3) = true) ∧
      (∃ u, exec (.decompenv true) (envState .msf 4 [5, 0, 0, 0, 0, 0, 1, 2, 3, 4]) = .next u ∧ decide (u.errPin = 1#3) = true)) ∧
    (∃ t, exec (.denc true 1) (quadState .msf 0) = .next t ∧ decide (t.errPin = 0#3) = true) ∧
    (∃ t, exec .qdec (payState .msf 0 [1, 2, 3]) = .next t ∧ decide (t.errPin ≠ 4#3) = true) :=
  ⟨⟨next_of _ (by decide), next_of _ (by decide)⟩, ⟨next_of _ (by decide), next_of _ (by decide)⟩, next_of _ (by decide),
    next_of _ (by decide)⟩

/-- NoOutputOnFailure: the failures not among those of RegionOverflowExactly's witness. -/
theorem witness_NoOutputOnFailure :
    (∃ t, exec .qdec (payState .msf 0 [1, 2, 3]) = .next t ∧ decide (t.errPin ≠ 0#3) = true) ∧
    (∃ t, exec (.compenv true) (seqState .msf 3 [7]) = .next t ∧ decide (t.errPin ≠ 0#3) = true) ∧
    (∃ t, exec (.decompenv true) (envState .msf 8 [1, 0, 0, 0]) = .next t ∧ decide (t.errPin ≠ 0#3) = true) :=
  ⟨next_of _ (by decide), next_of _ (by decide), next_of _ (by decide)⟩

/-- IllegalCommandTouchesNothing: the all-zero byte running, and 0xFF arriving, each with time passing next and with nothing. -/
theorem witness_IllegalCommandTouchesNothing :
    (∀ es ∈ [[], [HostEvent.elapse]], (busyState 0x00 es).busy = true ∧
      decode (busyState 0x00 es).cmdr = .error .noSuchOperation ∧ (busyState 0x00 es).inbox = es) ∧
    (∀ es ∈ [[], [HostEvent.elapse]], (hostState (.access (.regWrite 0x00 0xFF) :: es)).busy = false ∧
      (hostState (.access (.regWrite 0x00 0xFF) :: es)).held = [] ∧ 0xFF < 256 ∧
      decode (BitVec.ofNat 8 0xFF) = .error .reservedBit ∧
      (hostState (.access (.regWrite 0x00 0xFF) :: es)).inbox = .access (.regWrite 0x00 0xFF) :: es) := by decide

/-- AcceptedCommandStarts: the largest byte. -/
theorem witness_AcceptedCommandStarts :
    (hostState [.access (.regWrite 0x00 255)]).busy = false ∧ (hostState [.access (.regWrite 0x00 255)]).held = [] ∧
    (hostState [.access (.regWrite 0x00 255)]).inbox = .access (.regWrite 0x00 255) :: [] ∧ 255 < 256 := by decide

/-- StepRunsTheDecodedCommand: nothing at the interface, and time passing; FetchWordRunsNext: a word that decodes. -/
theorem witness_StepRunsTheDecodedCommand :
    ((busyState 0x33 []).busy = true ∧ decode (busyState 0x33 []).cmdr = .ok (.denc true 2) ∧ (busyState 0x33 []).inbox = []) ∧
    ((busyState 0x33 [.elapse]).busy = true ∧ decode (busyState 0x33 [.elapse]).cmdr = .ok (.denc true 2) ∧
      (busyState 0x33 [.elapse]).inbox = .elapse :: []) := by decide

theorem witness_FetchWordRunsNext : decode (BitVec.ofNat 8 0x73) = .ok (.denc true 4) := by decide

/-- StatusChangesOnlyByTheseEvents: each of its events changes `STATUS`. -/
theorem witness_StatusChangesOnlyByTheseEvents :
    (∃ t, step (hostState [.access (.regWrite 0x00 1)]) = .next t ∧
      decide (t.status ≠ (hostState [.access (.regWrite 0x00 1)]).status) = true) ∧
    (∃ t, step (busyState 0x01 [.elapse]) = .next t ∧ decide (t.status ≠ (busyState 0x01 [.elapse]).status) = true) ∧
    (∃ t, step (busyState 0x01 [.reset]) = .next t ∧ decide (t.status ≠ (busyState 0x01 [.reset]).status) = true) :=
  ⟨next_of _ (by decide), next_of _ (by decide), next_of _ (by decide)⟩

/-- BusyBlockHoldsAccesses: the last register served, under both orders, and the first one held. -/
theorem witness_BusyBlockHoldsAccesses :
    (∀ o ∈ [CtrlOrder.msf, .lsf],
      ({ startCommand 0x01 (quadState o 64) with inbox := [.access (.regRead 0x02)] } : State).busy = true ∧
      ({ startCommand 0x01 (quadState o 64) with inbox := [.access (.regRead 0x02)] } : State).inbox = .access (.regRead 0x02) :: [] ∧
      ({ startCommand 0x01 (quadState o 64) with inbox := [.access (.regRead 0x02)] } : State).cfg.ctrlOrder = o) ∧
    ((busyState 0x01 [.access (.regRead 0x03)]).busy = true ∧
      (busyState 0x01 [.access (.regRead 0x03)]).inbox = .access (.regRead 0x03) :: [] ∧
      HostAccess.regRead 0x03 ≠ .regRead 0x00 ∧ HostAccess.regRead 0x03 ≠ .regRead 0x01 ∧
      HostAccess.regRead 0x03 ≠ .regRead 0x02) := by decide

/-- IdleBlockPerformsAccesses: an access held, with each thing that may come; nothing held. -/
theorem witness_IdleBlockPerformsAccesses :
    ∀ es ∈ [[], [.access (.regRead 0x01)], [.elapse]],
      ({ hostState es with held := [.regRead 0x04] } : State).busy = false ∧
      ({ hostState es with held := [.regRead 0x04] } : State).held = .regRead 0x04 :: [] ∧
      (hostState es).busy = false ∧ (hostState es).held = [] ∧ (hostState es).inbox = es := by decide

/-- ResetInAnyState: a reset at a busy block. -/
theorem witness_ResetInAnyState : (busyState 0x01 [.reset]).inbox = .reset :: [] ∧ (busyState 0x01 [.reset]).busy = true := by decide

/-- CommandsStraightAfterReset: room for exactly four bytes. -/
theorem witness_CommandsStraightAfterReset :
    fits (blank .msf 4).cfg.payCap 4 = true ∧ fits (blank .msf 4).cfg.envCap 4 = true := by decide

/-- HostRegisterWrite: the largest value of `ECOUNT` and of `CTRLB`, the capacity as a length, read-only and reserved numbers. -/
theorem witness_HostRegisterWrite :
    ((0x03 : Fin 64) ≠ 0x00 ∧ writeAllowed (blank .msf 8).cfg 4294967295 (regOf 0x03) = true ∧ hostWritable (regOf 0x03) = true ∧
      4294967295 < 2 ^ 32) ∧
    ((0x08 : Fin 64) ≠ 0x00 ∧ writeAllowed (blank .msf 8).cfg 255 (regOf 0x08) = true ∧ 255 < 256) ∧
    (∀ n ∈ ([0x0A, 0x0B, 0x0C, 0x0D] : List (Fin 64)), n ≠ 0x00 ∧ writeAllowed (blank .msf 8).cfg 8 (regOf n) = true) ∧
    (8 ≤ (blank .msf 8).cfg.seqCap.val ∧
      ∀ cap ∈ [(blank .msf 8).cfg.ctlCap, (blank .msf 8).cfg.payCap, (blank .msf 8).cfg.envCap], cap = some 8) ∧
    ((0x09 : Fin 64) ≠ 0x00 ∧ writeAllowed (blank .msf 8).cfg 31 (regOf 0x09) = true ∧ hostWritable (regOf 0x09) = false) ∧
    0x0E ≤ (0x0E : Fin 64).val ∧ 0x0E ≤ (0x3F : Fin 64).val := by decide

/-- HostElementWrite: the last element, with the largest values. -/
theorem witness_HostElementWrite :
    ((blank .msf 8).cfg.cap .seq = some 8 ∧ 7 < 8 ∧ 4294967295 < (if RegionName.seq = .seq then 2 ^ 32 else 256)) ∧
    ((blank .msf 8).cfg.cap .env = some 8 ∧ 7 < 8 ∧ 255 < (if RegionName.env = .seq then 2 ^ 32 else 256)) := by decide

/-- HostReads: the last index below each length; at the length and below the capacity; both orders; the ends of the reserved
numbers. -/
theorem witness_HostReads :
    (2 < (partState .msf 8 [1, 2, 3] [4] 0).regionLen .pay ∧ 0 < (partState .msf 8 [1, 2, 3] [4] 0).ctl.len ∧
      1 < (seqState .msf 8 [7, 300]).seq.len ∧ 3 < (envState .msf 8 [0, 0, 0, 0]).env.len) ∧
    ((partState .msf 8 [1, 2, 3] [] 0).regionLen .pay ≤ 3 ∧ (partState .msf 8 [1, 2, 3] [] 0).cfg.cap .pay = some 8 ∧ 3 < 8) ∧
    ((blank .msf 8).cfg.ctrlOrder = .msf ∧ (blank .lsf 8).cfg.ctrlOrder = .lsf) ∧
    (0x0E ≤ (0x0E : Fin 64).val ∧ 0x0E ≤ (0x3F : Fin 64).val) := by decide

/-- NoMoveBeyondTheCapacity: the first index that does not exist. -/
theorem witness_NoMoveBeyondTheCapacity :
    (partState .msf 8 [1, 2, 3] [] 0).cfg.cap .pay = some 8 ∧ 8 ≤ 8 ∧ (partState .msf 8 [1, 2, 3] [] 0).regionLen .pay ≤ 8 ∧
    regOf 0x0C = .len .pay := by decide

/-- StepKeepsTheInvariant: a busy state that holds an access meets it, and steps. -/
theorem witness_StepKeepsTheInvariant :
    ({ busyState 0x01 [.elapse] with held := [.regWrite 0x04 5] } : State).Inv ∧
    ∃ t, step { busyState 0x01 [.elapse] with held := [.regWrite 0x04 5] } = .next t ∧ decide (t.status = 0x02#8) = true :=
  ⟨by decide, next_of _ (by decide)⟩

/-- ConfigurationIsConstant: a reset is a step. -/
theorem witness_ConfigurationIsConstant : ∃ t, step (busyState 0x01 [.reset]) = .next t ∧ true = true :=
  next_of (fun _ => true) (by decide)

/-- CommandsKeepToTheirFootprint: a command, and a component it does not write. -/
theorem witness_CommandsKeepToTheirFootprint :
    (∃ t, exec (.comp true) (seqState .msf 64 [7]) = .next t ∧ true = true) ∧ writesComponent (.comp true) (.region .env) = false :=
  ⟨next_of (fun _ => true) (by decide), by decide⟩

/-- ResultDependsOnNamedInputsOnly: `QENC` in two states that agree on `Q` alone. -/
theorem witness_ResultDependsOnNamedInputsOnly :
    (quadState .msf 8).cfg = ({ quadState .msf 8 with ecount := 3, ctrlb := 0 } : State).cfg ∧
    (∀ c, readsComponent .qenc c = true → SameValue (quadState .msf 8) { quadState .msf 8 with ecount := 3, ctrlb := 0 } c) ∧
    (∃ t, exec .qenc (quadState .msf 8) = .next t ∧ true = true) ∧
    (∃ t, exec .qenc { quadState .msf 8 with ecount := 3, ctrlb := 0 } = .next t ∧ true = true) ∧
    writesComponent .qenc .ctrlb = true := by
  refine ⟨rfl, ?_, next_of (fun _ => true) (by decide), next_of (fun _ => true) (by decide), rfl⟩
  intro c hc
  have : c = .q := by simpa [readsComponent] using hc
  subst this
  rfl

/-- CommandsAreIdempotent: `COMPENV` twice. -/
theorem witness_CommandsAreIdempotent :
    (∀ d r, Instr.compenv true ≠ .denc d r) ∧ (∀ d, Instr.compenv true ≠ .ddec d) ∧
    (∃ t, exec (.compenv true) (seqState .msf 64 [7]) = .next t ∧
      ends (exec (.compenv true) t) (fun u => decide (u.status = t.status)) = true) :=
  ⟨fun _ _ h => (nomatch h), by decide, next_of _ (by decide)⟩

/-- CapacityPlanning: the capacities of the rule, for one element and for four, all used; `QENC` with 16. -/
theorem witness_CapacityPlanning :
    ((seqState .msf 21 [7]).seq.len ≤ 1 ∧ fits ((seqState .msf 21 [7]).cfg.cap .ctl) (ceil4 1) = true ∧
      fits ((seqState .msf 21 [7]).cfg.cap .pay) (16 * ceil4 1) = true ∧
      fits ((seqState .msf 21 [7]).cfg.cap .env) (4 + 17 * ceil4 1) = true ∧
      ∃ t, exec (.compenv true) (seqState .msf 21 [7]) = .next t ∧ true = true) ∧
    ((vDecomp 8 8).ecount.toNat ≤ 8 ∧ fits ((vDecomp 8 8).cfg.cap .seq) 8 = true ∧
      ∃ t, exec (.decomp true) (vDecomp 8 8) = .next t ∧ true = true) ∧
    (fits ((quadState .msf 16).cfg.cap .pay) 16 = true ∧ ∃ t, exec .qenc (quadState .msf 16) = .next t ∧ true = true) :=
  ⟨⟨by decide, by decide, by decide, by decide, next_of (fun _ => true) (by decide)⟩,
    ⟨by decide, by decide, next_of (fun _ => true) (by decide)⟩, ⟨by decide, next_of (fun _ => true) (by decide)⟩⟩

end Sys2Proof.Tests
end

section
/-! The byte count of a value (00_scope.md R8): `klen v ≤ k` says that `v` fits in `k` bytes. -/

namespace Sys2Proof.Machine

theorem klen_pos (v : Word) : 1 ≤ klen v := by
  unfold klen
  split_ifs <;> omega

theorem klen_le_four (v : Word) : klen v ≤ 4 := by
  unfold klen
  split_ifs <;> omega

/-- `klen` and `256 ^ ·` are adjoint: R8's minimality and sufficiency are its two directions. -/
theorem klen_le_iff (v : Word) {k : Nat} (hk : 1 ≤ k) : klen v ≤ k ↔ v.toNat < 256 ^ k := by
  rcases Nat.lt_or_ge k 4 with hk4 | hk4
  · unfold klen
    interval_cases k <;> split_ifs <;> omega
  · have hv : v.toNat < 256 ^ 4 := v.isLt
    have hpow : 256 ^ 4 ≤ 256 ^ k := Nat.pow_le_pow_right (by decide) hk4
    exact iff_of_true ((klen_le_four v).trans hk4) (hv.trans_le hpow)

theorem toNat_lt_pow_klen (v : Word) : v.toNat < 256 ^ klen v :=
  (klen_le_iff v (klen_pos v)).mp le_rfl

@[simp] theorem klen_zero : klen 0#32 = 1 := rfl

/-- Settles O6: `klen_le_iff` read at `k = klen v` gives that the value fits, and at any other `k` that `klen v` is least. -/
theorem klenIsTheMinimalByteCount : Obligations.KlenIsTheMinimalByteCount :=
  ⟨fun v => ⟨klen_pos v, klen_le_four v, toNat_lt_pow_klen v, fun _ hk _ hv => (klen_le_iff v hk).mpr hv⟩, klen_zero⟩

end Sys2Proof.Machine
end

section
/-! Every step keeps the invariant and the configuration (10_state.md R13, R16, R17, R21): a relation between a state and a later
one that every stage, command, host access and reset satisfies and that composes. -/

namespace Sys2Proof.Machine

/-- From `s` to `t` the configuration stays, each part of the invariant carries over, and nothing more is held. -/
structure Preserves (s t : State) : Prop where
  cfg : t.cfg = s.cfg
  status : statusLegal s.status = true → statusLegal t.status = true
  nbytes : nbytesLegal s.nbytes = true → nbytesLegal t.nbytes = true
  memory : Memory.wf s = true → Memory.wf t = true
  held : t.held ⊆ s.held

theorem Preserves.refl (s : State) : Preserves s s := ⟨rfl, id, id, id, List.Subset.refl _⟩

theorem Preserves.trans {s t u : State} (h : Preserves s t) (h' : Preserves t u) : Preserves s u where
  cfg := h'.cfg.trans h.cfg
  status := h'.status ∘ h.status
  nbytes := h'.nbytes ∘ h.nbytes
  memory := h'.memory ∘ h.memory
  held := List.Subset.trans h'.held h.held

theorem Preserves.inv {s t : State} (h : Preserves s t) (hs : s.Inv) : t.Inv := by
  obtain ⟨hstatus, hnbytes, hmemory, hheld⟩ := hs
  exact ⟨h.status hstatus, h.nbytes hnbytes, h.memory hmemory, fun a ha => hheld a (h.held ha)⟩

/-! ### Updates of the block's data -/

/-- New values of the registers and regions preserve what each of them, alone, keeps legal or canonical. -/
theorem preserves_update {s : State} {ec : BitVec 32} {q : Quad} {cb : BitVec 8} {nb : BitVec 5} {rs : Region Word}
    {rc rp re : Region Byte} (hnb : nbytesLegal s.nbytes = true → nbytesLegal nb = true)
    (hs : s.seq.wf (s.cfg.cap .seq) = true → rs.wf (s.cfg.cap .seq) = true)
    (hc : s.ctl.wf (s.cfg.cap .ctl) = true → rc.wf (s.cfg.cap .ctl) = true)
    (hp : s.pay.wf (s.cfg.cap .pay) = true → rp.wf (s.cfg.cap .pay) = true)
    (he : s.env.wf (s.cfg.cap .env) = true → re.wf (s.cfg.cap .env) = true) :
    Preserves s { s with ecount := ec, q := q, ctrlb := cb, nbytes := nb, seq := rs, ctl := rc, pay := rp, env := re } where
  cfg := rfl
  status := id
  nbytes := hnb
  memory h := by
    obtain ⟨h1, h2, h3, h4⟩ := (memory_wf_iff s).mp h
    exact (memory_wf_iff _).mpr ⟨hs h1, hc h2, hp h3, he h4⟩
  held := List.Subset.refl _

theorem preserves_complete (e : Err) (s : State) : Preserves s (complete e s) where
  cfg := rfl
  status _ := by rw [complete_status]; cases e <;> decide
  nbytes := id
  memory := id
  held := List.Subset.refl _

theorem preserves_startCommand (c : Byte) (s : State) : Preserves s (startCommand c s) where
  cfg := rfl
  status _ := by rw [startCommand_status]; decide
  nbytes := id
  memory := id
  held := List.Subset.refl _

theorem preserves_setRegionLen {s : State} {X : RegionName} {n : Nat} (hn : fits (s.cfg.cap X) n = true) :
    Preserves s (s.setRegionLen X n) where
  cfg := setRegionLen_cfg s X n
  status h := by rwa [setRegionLen_status]
  nbytes h := by rwa [setRegionLen_nbytes]
  memory := setRegionLen_wf s X n hn
  held := by rw [setRegionLen_held]; exact List.Subset.refl _

theorem preserves_writeElem {s : State} {X : RegionName} {i : Nat} (v : Nat) (hi : indexExists (s.cfg.cap X) i = true) :
    Preserves s (s.writeElem X i v) where
  cfg := writeElem_cfg s X i v
  status h := by rwa [writeElem_status]
  nbytes h := by rwa [writeElem_nbytes]
  memory := writeElem_wf s X i v hi
  held := by rw [writeElem_held]; exact List.Subset.refl _

theorem preserves_resetBlock (s : State) : Preserves s (resetBlock s) where
  cfg := rfl
  status _ := by rw [resetBlock_status]; decide
  nbytes _ := by rw [resetBlock_nbytes]; decide
  memory _ := resetBlock_wf s
  held _ := mem_heldAfterReset

/-! ### `NBYTES` after a quad command (R13) -/

theorem quadEncode_length_bounds (o : CtrlOrder) (v : Quad) :
    4 ≤ (quadEncode o v).1.length ∧ (quadEncode o v).1.length ≤ 16 := by
  simp only [quadEncode, List.length_append, leBytes_length]
  have := klen_pos v.v0
  have := klen_pos v.v1
  have := klen_pos v.v2
  have := klen_pos v.v3
  have := klen_le_four v.v0
  have := klen_le_four v.v1
  have := klen_le_four v.v2
  have := klen_le_four v.v3
  omega

theorem qlen_bounds (o : CtrlOrder) (c : Byte) : 4 ≤ qlen o c ∧ qlen o c ≤ 16 := by
  have := slotLen_bounds o c 0
  have := slotLen_bounds o c 1
  have := slotLen_bounds o c 2
  have := slotLen_bounds o c 3
  simp only [qlen]
  omega

theorem nbytesLegal_ofNat {n : Nat} (h : 4 ≤ n ∧ n ≤ 16) : nbytesLegal (BitVec.ofNat 5 n) = true := by
  have hn : (BitVec.ofNat 5 n).toNat = n := Nat.mod_eq_of_lt (by omega)
  simp [nbytesLegal, hn, h]

/-! ### Stages -/

theorem preserves_compStage (diff : Bool) (s : State) : Preserves s (compStage diff s).1 := by
  rcases compStage_cases diff s with ⟨hp, hc, h⟩ | ⟨-, h⟩ <;> rw [h]
  · exact preserves_update id id (fun _ => store_wf _ _ _ hc) (fun _ => store_wf _ _ _ hp) id
  · exact preserves_update id id (fun _ => clear_wf _ _) (fun _ => clear_wf _ _) id

/-- Where `DECOMP` succeeds it stores exactly `ECOUNT` values, for which it has checked the capacity (R114, R159). -/
theorem preserves_decompStage (diff : Bool) (s : State) : Preserves s (decompStage diff s).1 := by
  rcases decompStage_cases diff s with ⟨out, hd, hf, h⟩ | ⟨_, -, -, h⟩ | ⟨_, -, h⟩ <;> rw [h]
  · have hfits : fits (s.cfg.cap .seq) out.length = true := by rwa [decompress_length hd]
    exact preserves_update id (fun _ => store_wf _ _ _ hfits) id id id
  · exact preserves_update id (fun _ => clear_wf _ _) id id id
  · exact preserves_update id (fun _ => clear_wf _ _) id id id

theorem preserves_serStage (s : State) : Preserves s (serStage s).1 := by
  rcases serStage_cases s with ⟨hf, h⟩ | ⟨-, h⟩ <;> rw [h]
  · exact preserves_update id id id id (fun _ => store_wf _ _ _ hf)
  · exact preserves_update id id id id (fun _ => clear_wf _ _)

theorem preserves_deserStage (s : State) : Preserves s (deserStage s).1 := by
  rcases deserStage_cases s with ⟨pay, ctl, n, -, hc, hp, h⟩ | ⟨_, _, _, -, -, h⟩ | ⟨-, h⟩ <;> rw [h]
  · exact preserves_update id id (fun _ => store_wf _ _ _ hc) (fun _ => store_wf _ _ _ hp) id
  · exact preserves_update id id (fun _ => clear_wf _ _) (fun _ => clear_wf _ _) id
  · exact preserves_update id id (fun _ => clear_wf _ _) (fun _ => clear_wf _ _) id

/-! ### Commands -/

/-- A command that is a stage and its end preserves what the stage preserves. -/
theorem Preserves.of_exec {i : Instr} {s t u : State} {e : Err} (hx : exec i s = .next (complete e u)) (hu : Preserves s u)
    (h : exec i s = .next t) : Preserves s t := by
  rw [hx] at h
  cases h
  exact hu.trans (preserves_complete e u)

theorem preserves_qenc {s t : State} (h : exec .qenc s = .next t) : Preserves s t := by
  cases hf : fits (s.cfg.cap .pay) (quadEncode s.cfg.ctrlOrder s.q).1.length with
  | true =>
    have hn := nbytesLegal_ofNat (quadEncode_length_bounds s.cfg.ctrlOrder s.q)
    exact .of_exec (execQenc_fits s hf) (preserves_update (fun _ => hn) id id (fun _ => store_wf _ _ _ hf) id) h
  | false => exact .of_exec (execQenc_overflow s hf) (preserves_update id id id (fun _ => clear_wf _ _) id) h

theorem preserves_qdec {s t : State} (h : exec .qdec s = .next t) : Preserves s t := by
  cases hd : quadDecode s.cfg.ctrlOrder s.payVal s.ctrlb with
  | none => exact .of_exec (execQdec_truncated s hd) (.refl s) h
  | some r =>
    obtain ⟨v, n⟩ := r
    have hn : nbytesLegal (BitVec.ofNat 5 n) = true := nbytesLegal_ofNat (quadDecode_consumes hd ▸ qlen_bounds _ _)
    exact .of_exec (execQdec_ok s v n hd) (preserves_update (fun _ => hn) id id id id) h

theorem preserves_compenv {diff : Bool} {s t : State} (h : exec (.compenv diff) s = .next t) : Preserves s t := by
  have h1 := preserves_compStage diff s
  rcases hc : compStage diff s with ⟨s1, e⟩
  rw [hc] at h1
  by_cases he : e = .noError
  · subst he
    exact .of_exec (execCompenv_second hc) (h1.trans (preserves_serStage s1)) h
  · exact .of_exec (execCompenv_first hc he) (h1.trans (preserves_update id id id id (fun _ => clear_wf _ _))) h

theorem preserves_decompenv {diff : Bool} {s t : State} (h : exec (.decompenv diff) s = .next t) : Preserves s t := by
  have h1 := preserves_deserStage s
  rcases hc : deserStage s with ⟨s1, e⟩
  rw [hc] at h1
  by_cases he : e = .noError
  · subst he
    exact .of_exec (execDecompenv_second hc) (h1.trans (preserves_decompStage diff s1)) h
  · exact .of_exec (execDecompenv_first hc he) (h1.trans (preserves_update id (fun _ => clear_wf _ _) id id id)) h

theorem preserves_exec {i : Instr} {s t : State} (h : exec i s = .next t) : Preserves s t := by
  cases i with
  | qenc => exact preserves_qenc h
  | qdec => exact preserves_qdec h
  | denc diff r =>
    cases diff
    · exact .of_exec (exec_denc false r s) (.refl s) h
    · exact .of_exec (exec_denc true r s) (preserves_update id id id id id) h
  | ddec diff =>
    cases diff
    · exact .of_exec (exec_ddec false s) (.refl s) h
    · exact .of_exec (exec_ddec true s) (preserves_update id id id id id) h
  | comp diff => exact .of_exec (exec_comp diff s) (preserves_compStage diff s) h
  | decomp diff => exact .of_exec (exec_decomp diff s) (preserves_decompStage diff s) h
  | ser => exact .of_exec (exec_ser s) (preserves_serStage s) h
  | deser => exact .of_exec (exec_deser s) (preserves_deserStage s) h
  | compenv diff => exact preserves_compenv h
  | decompenv diff => exact preserves_decompenv h

theorem preserves_runCommand {s t : State} (h : runCommand s = .next t) : Preserves s t := by
  unfold runCommand at h
  split at h
  · exact preserves_exec h
  · cases h
    exact preserves_complete _ s

/-! ### Host accesses and steps -/

theorem preserves_perform {a : HostAccess} {s t : State} (h : perform a s = .next t) : Preserves s t := by
  rcases perform_cases h with ⟨v, ht⟩ | ⟨n, v, -, hw⟩ | ⟨X, i, v, -, hi, -, rfl⟩
  · rw [ht]
    exact ⟨rfl, id, id, id, List.Subset.refl _⟩
  · rcases regWrite_cases hw with ⟨-, -, rfl⟩ | ⟨X, -, hf, rfl⟩ | ⟨-, ht⟩
    · exact preserves_startCommand _ s
    · exact preserves_setRegionLen hf
    · rw [ht]
      exact preserves_update id id id id id
  · exact preserves_writeElem v hi

/-- A step first moves accesses between the interface and the block, holding only what a busy block does not serve (R184), and
then preserves. -/
theorem step_preserves {s t : State} (h : step s = .next t) :
    ∃ s', s' = { s with held := s'.held, inbox := s'.inbox } ∧
      (∀ a ∈ s'.held, a ∈ s.held ∨ servedWhileBusy a = false) ∧ Preserves s' t := by
  obtain ⟨s', hs', hcases⟩ := step_cases s
  refine ⟨s', hs', ?_⟩
  rcases hcases with ⟨-, hheld, hx⟩ | ⟨-, hheld, hx⟩ | ⟨a, -, ha, hheld, hx⟩ | ⟨a, -, -, hheld, hx⟩ | ⟨a, -, -, -, hheld, hx⟩ |
    ⟨a, -, hheld, hx⟩ | ⟨-, hheld, hx⟩ <;> rw [hx] at h
  · exact ⟨fun b hb => .inl (hheld ▸ hb), preserves_runCommand h⟩
  · cases h
    exact ⟨fun b hb => .inl (hheld ▸ hb), preserves_resetBlock _⟩
  · cases h
    refine ⟨fun b hb => ?_, .refl _⟩
    rw [hheld, List.mem_append, List.mem_singleton] at hb
    exact hb.imp_right fun hba => by rwa [hba]
  · exact ⟨fun b hb => .inl (hheld ▸ hb), preserves_perform h⟩
  · exact ⟨fun b hb => absurd hb (by simp [hheld]), preserves_perform h⟩
  · exact ⟨fun b hb => .inl (hheld ▸ List.mem_cons_of_mem a hb), preserves_perform h⟩
  · cases h
    exact ⟨fun b hb => .inl (hheld ▸ hb), .refl _⟩

/-- Settles O55: what moves at the interface keeps the last part of the invariant, and the rest of the step preserves all of it. -/
theorem stepKeepsTheInvariant : Obligations.StepKeepsTheInvariant := by
  intro s t ⟨hstatus, hnbytes, hmemory, hheld⟩ h
  obtain ⟨s', hs', hnew, hst⟩ := step_preserves h
  refine hst.inv ⟨?_, ?_, ?_, fun a ha => (hnew a ha).elim (hheld a) id⟩
  · rw [hs']; exact hstatus
  · rw [hs']; exact hnbytes
  · rw [hs']; exact hmemory

/-- Settles O56: what moves at the interface leaves the configuration, and the rest of the step preserves it. -/
theorem configurationIsConstant : Obligations.ConfigurationIsConstant := by
  intro s t h
  obtain ⟨s', hs', -, hst⟩ := step_preserves h
  have hcfg : s'.cfg = s.cfg := by rw [hs']
  exact hst.cfg.trans hcfg

theorem resetWith_inv (c : Config) : (State.resetWith c).Inv :=
  ⟨(by decide : statusLegal 0x00#8 = true), (by decide : nbytesLegal 0#5 = true), resetWith_wf c, fun _ h => nomatch h⟩

/-- Settles O54: every region is empty, hence canonical, and the registers are zero. -/
theorem invariantAtReset : Obligations.InvariantAtReset := ⟨resetWith_inv Config.initial, resetWith_inv⟩

end Sys2Proof.Machine
end

section
/-! The host's accesses, one by one (10_state.md R18, R20, R29; 20_memory.md R40, R46): the next state of each that goes on, and
what every register and every element reads afterwards. -/

namespace Sys2Proof.Machine

theorem fits_iff {cap : Option Nat} {n : Nat} : fits cap n = true ↔ ∀ c, cap = some c → n ≤ c := by
  cases cap <;> simp [fits]

theorem indexExists_iff {cap : Option Nat} {i : Nat} : indexExists cap i = true ↔ ∀ c, cap = some c → i < c := by
  cases cap <;> simp [indexExists]

/-- `elemBound` with the widths of R40. -/
theorem elemBound_eq (X : RegionName) : elemBound X = if X = .seq then 2 ^ 32 else 256 := by
  cases X <;> rfl

/-! ### The state after a register write -/

/-- `s` with `v` written to the register `r` of the block's data: the effect of `regWrite` when it is admitted and starts no
command (`regWrite_allowed`). -/
def State.setReg (s : State) (r : Reg) (v : Nat) : State :=
  match r with
  | .ecount => { s with ecount := BitVec.ofNat 32 v }
  | .q0 => { s with q := { s.q with v0 := BitVec.ofNat 32 v } }
  | .q1 => { s with q := { s.q with v1 := BitVec.ofNat 32 v } }
  | .q2 => { s with q := { s.q with v2 := BitVec.ofNat 32 v } }
  | .q3 => { s with q := { s.q with v3 := BitVec.ofNat 32 v } }
  | .ctrlb => { s with ctrlb := BitVec.ofNat 8 v }
  | .len X => s.setRegionLen X v
  | .cmd => s
  | .status => s
  | .cfg => s
  | .nbytes => s
  | .reserved => s

theorem regWrite_allowed {s : State} {r : Reg} {v : Nat} (hr : r ≠ .cmd) (hv : writeAllowed s.cfg v r = true) :
    regWrite s r v = .next (s.setReg r v) := by
  cases r with
  | cmd => exact absurd rfl hr
  | len X => exact if_pos hv
  | ecount | q0 | q1 | q2 | q3 | ctrlb => exact if_pos (of_decide_eq_true hv)
  | status | cfg | nbytes | reserved => rfl

theorem setReg_of_not_hostWritable {s : State} {r : Reg} {v : Nat} (hr : hostWritable r = false) : s.setReg r v = s := by
  cases r with
  | ecount | q0 | q1 | q2 | q3 | ctrlb | len X => cases hr
  | cmd | status | cfg | nbytes | reserved => rfl

theorem writeAllowed_of_not_hostWritable {c : Config} {r : Reg} {v : Nat} (hr : hostWritable r = false) (hc : r ≠ .cmd) :
    writeAllowed c v r = true := by
  cases r with
  | cmd => exact absurd rfl hc
  | ecount | q0 | q1 | q2 | q3 | ctrlb | len X => cases hr
  | status | cfg | nbytes | reserved => rfl

@[simp] theorem regionLen_setRegionLen (s : State) (X Y : RegionName) (n : Nat) :
    (s.setRegionLen X n).regionLen Y = if Y = X then n else s.regionLen Y := by
  cases X <;> cases Y <;> rfl

@[simp] theorem readElem_setRegionLen (s : State) (X Y : RegionName) (n j : Nat) :
    (s.setRegionLen X n).readElem Y j = s.readElem Y j := by
  cases X <;> cases Y <;> rfl

/-- A writable register holds the value written, which is of its width. -/
theorem regValue_setReg_self {s : State} {r : Reg} {v : Nat} (hr : hostWritable r = true) (hv : writeAllowed s.cfg v r = true) :
    regValue (s.setReg r v) r = v := by
  cases r with
  | len X => simp [regValue, State.setReg]
  | ecount | q0 | q1 | q2 | q3 | ctrlb => exact Nat.mod_eq_of_lt (of_decide_eq_true hv)
  | cmd | status | cfg | nbytes | reserved => cases hr

theorem regValue_setReg_of_ne {s : State} {r r' : Reg} {v : Nat} (h : r' ≠ r) : regValue (s.setReg r v) r' = regValue s r' := by
  cases r with
  | len X => cases r' <;> simp_all [regValue, State.setReg]
  | ecount | q0 | q1 | q2 | q3 | ctrlb => cases r' <;> simp_all [regValue, State.setReg, State.regionLen]
  | cmd | status | cfg | nbytes | reserved => rfl

theorem readElem_setReg (s : State) (r : Reg) (v : Nat) (Y : RegionName) (j : Nat) :
    (s.setReg r v).readElem Y j = s.readElem Y j := by
  cases r with
  | len X => exact readElem_setRegionLen s X Y v j
  | _ => rfl

/-! ### The register map (R18) -/

/-- No two numbers name the same writable register. -/
theorem eq_of_regOf_eq {m n : Fin 64} (h : regOf m = regOf n) (hw : hostWritable (regOf n) = true) : m = n := by
  have key : ∀ n : Fin 64, hostWritable (regOf n) = true → ∀ m : Fin 64, regOf m = regOf n → m = n := by decide
  exact key n hw m h

theorem regOf_ne_cmd {n : Fin 64} (h : n ≠ 0x00) : regOf n ≠ .cmd := by
  have key : ∀ n : Fin 64, n ≠ 0x00 → regOf n ≠ .cmd := by decide
  exact key n h

theorem regOf_reserved {n : Fin 64} (h : 0x0E ≤ n.val) : regOf n = .reserved := by
  have key : ∀ n : Fin 64, 0x0E ≤ n.val → regOf n = .reserved := by decide
  exact key n h

theorem regValue_setReg {s : State} {n : Fin 64} {v : Nat} (hv : writeAllowed s.cfg v (regOf n) = true) (m : Fin 64) :
    regValue (s.setReg (regOf n) v) (regOf m) =
      if m = n ∧ hostWritable (regOf n) = true then v else regValue s (regOf m) := by
  cases hw : hostWritable (regOf n) with
  | false => simp [setReg_of_not_hostWritable hw]
  | true =>
    by_cases hm : m = n
    · subst hm
      simp [regValue_setReg_self hw hv]
    · simp [hm, regValue_setReg_of_ne (mt (eq_of_regOf_eq · hw) hm)]

theorem perform_regWrite_not_hostWritable {s : State} {n : Fin 64} {v : Nat} (hn : n ≠ 0x00)
    (hw : hostWritable (regOf n) = false) : perform (.regWrite n v) s = .next s := by
  have hwrite := regWrite_allowed (regOf_ne_cmd hn) (writeAllowed_of_not_hostWritable (c := s.cfg) (v := v) hw (regOf_ne_cmd hn))
  rwa [setReg_of_not_hostWritable hw] at hwrite

/-- Settles O50: a register write that goes on leads to `State.setReg`, whose reads the lemmas above give. -/
theorem hostRegisterWrite : Obligations.HostRegisterWrite := by
  refine ⟨fun s n v hn hv => ⟨s.setReg (regOf n) v, regWrite_allowed (regOf_ne_cmd hn) hv, regValue_setReg hv,
    readElem_setReg s (regOf n) v, setReg_of_not_hostWritable⟩, fun s v => ⟨fun hv => ?_, fun hv => ?_, fun hv => ?_, fun hv => ?_,
    fun hv => ?_, fun hv => ?_, ?_⟩⟩
  · have hv : decide (v < 4294967296) = true := decide_eq_true hv
    exact ⟨regWrite_allowed (r := .ecount) (by simp) hv, regWrite_allowed (r := .q0) (by simp) hv,
      regWrite_allowed (r := .q1) (by simp) hv, regWrite_allowed (r := .q2) (by simp) hv, regWrite_allowed (r := .q3) (by simp) hv⟩
  · exact regWrite_allowed (r := .ctrlb) (by simp) (decide_eq_true hv)
  · exact regWrite_allowed (r := .len .seq) (by simp) (decide_eq_true hv)
  · exact regWrite_allowed (r := .len .ctl) (by simp) (fits_iff.mpr hv)
  · exact regWrite_allowed (r := .len .pay) (by simp) (fits_iff.mpr hv)
  · exact regWrite_allowed (r := .len .env) (by simp) (fits_iff.mpr hv)
  · rintro n (rfl | rfl | rfl | hn)
    · exact perform_regWrite_not_hostWritable (by decide) rfl
    · exact perform_regWrite_not_hostWritable (by decide) rfl
    · exact perform_regWrite_not_hostWritable (by decide) rfl
    · refine perform_regWrite_not_hostWritable ?_ (by rw [regOf_reserved hn]; rfl)
      rintro rfl
      exact absurd hn (by decide)

/-! ### The state after an element write -/

/-- Element `i` of a region reads as the number written to it, if that is of the element's width. -/
theorem toNat_elem_setElem {w : Nat} (free : Nat → Nat → BitVec w) (r : Region (BitVec w)) (i j : Nat) {v : Nat} (hv : v < 2 ^ w) :
    ((r.setElem i (BitVec.ofNat w v)).elem free j).toNat = if j = i then v else (r.elem free j).toNat := by
  rw [elem_setElem, apply_ite BitVec.toNat, BitVec.toNat_ofNat, Nat.mod_eq_of_lt hv]

theorem readElem_writeElem_same {s : State} {X : RegionName} {i v : Nat} (hv : v < elemBound X) (j : Nat) :
    (s.writeElem X i v).readElem X j = if j = i then v else s.readElem X j := by
  cases X <;> exact toNat_elem_setElem _ _ i j hv

theorem readElem_writeElem_of_ne {s : State} {X Y : RegionName} (h : Y ≠ X) (i v j : Nat) :
    (s.writeElem X i v).readElem Y j = s.readElem Y j := by
  cases X <;> cases Y <;> simp_all [State.writeElem, State.readElem]

theorem readElem_writeElem {s : State} {X : RegionName} {i v : Nat} (hv : v < elemBound X) (Y : RegionName) (j : Nat) :
    (s.writeElem X i v).readElem Y j = if Y = X ∧ j = i then v else s.readElem Y j := by
  by_cases h : Y = X
  · subst h
    simp [readElem_writeElem_same hv]
  · simp [h, readElem_writeElem_of_ne h]

@[simp] theorem regionLen_writeElem (s : State) (X Y : RegionName) (i v : Nat) :
    (s.writeElem X i v).regionLen Y = s.regionLen Y := by
  cases X <;> cases Y <;> rfl

theorem regValue_writeElem (s : State) (X : RegionName) (i v : Nat) (r : Reg) :
    regValue (s.writeElem X i v) r = regValue s r := by
  cases r <;> simp [regValue]

/-- Settles O51: an element write that goes on is `State.writeElem`. -/
theorem hostElementWrite : Obligations.HostElementWrite := by
  intro s X i v hi hv
  rw [← elemBound_eq] at hv
  refine ⟨s.writeElem X i v, ?_, readElem_writeElem hv, fun m => regValue_writeElem s X i v (regOf m)⟩
  simp only [perform, regionWrite, ifFits, indexExists_iff.mpr hi, hv, if_true]

/-! ### Reads -/

/-- `CFG` as a number (R17). -/
theorem cfgWord_toNat (c : Config) : (cfgWord c).toNat = if c.ctrlOrder = .msf then 0 else 1 := by
  unfold cfgWord
  cases c.ctrlOrder <;> rfl

theorem getElem?_values {α : Type} (free : Nat → Nat → α) (r : Region α) {i : Nat} (h : i < r.len) :
    (r.values free)[i]? = some (r.elem free i) := by
  simp [Region.values, h]

theorem freeElem_lt (X : RegionName) (n : Nat) : freeElem X n < elemBound X :=
  Nat.mod_lt _ (by cases X <;> decide)

theorem regionRead_below {s : State} {X : RegionName} {i : Nat} (h : i < s.regionLen X) :
    perform (.regionRead X i) s = .next (reply s (.regionRead X i) (s.readElem X i)) :=
  if_pos h

theorem regionRead_beyond {s : State} {X : RegionName} {i : Nat} (h : s.regionLen X ≤ i) (hi : indexExists (s.cfg.cap X) i = true) :
    perform (.regionRead X i) s = .next { reply s (.regionRead X i) (freeElem X s.draws) with draws := s.draws + 1 } :=
  (if_neg (Nat.not_lt.mpr h)).trans (if_pos hi)

/-- Settles O52: each number of R18's map by evaluation, an element read on either side of the length. -/
theorem hostReads : Obligations.HostReads := by
  refine ⟨fun _ _ => rfl, fun s n => ⟨regValue s (regOf n), rfl, ?_⟩, fun s X i h => regionRead_below h,
    fun s i => ⟨fun h => ?_, fun h => ?_, fun h => ?_, fun h => ?_⟩, fun s X i h hi => ?_⟩
  · refine ⟨?_, ?_, ?_, ?_, ?_, ?_, ?_, ?_, ?_, ?_, ?_, ?_, ?_, ?_, ?_, fun h => ?_⟩
    case refine_3 => rintro rfl ho; exact (cfgWord_toNat s.cfg).trans (if_pos ho)
    case refine_4 => rintro rfl ho; exact (cfgWord_toNat s.cfg).trans (if_neg (by simp [ho]))
    case refine_16 => rw [regOf_reserved h]; rfl
    all_goals rintro rfl; rfl
  · rw [State.seqVal, getElem?_values _ _ h]; rfl
  · rw [State.ctlVal, getElem?_values _ _ h]; rfl
  · rw [State.payVal, getElem?_values _ _ h]; rfl
  · rw [State.envVal, getElem?_values _ _ h]; rfl
  · exact ⟨freeElem X s.draws, elemBound_eq X ▸ freeElem_lt X s.draws, regionRead_beyond h (indexExists_iff.mpr hi)⟩

/-! ### Reset -/

/-- A reset comes before everything else, in a busy block and in an idle one, with accesses held or not (R180, R181). -/
theorem step_reset {s : State} {es : List HostEvent} (h : s.inbox = .reset :: es) :
    step s = .next (resetBlock { s with inbox := es }) := by
  cases hb : s.busy with
  | true => simp only [step_busy hb, moveBusy, h]
  | false =>
    cases hh : s.held with
    | nil =>
      rw [step_idle hb hh]
      simp only [moveIdle, h, hh]
    | cons a as =>
      rw [step_held hb hh]
      simp only [moveHeld, h, hh]

/-- Settles O48: the step is `resetBlock`, whose fields are R28's. -/
theorem resetInAnyState : Obligations.ResetInAnyState :=
  fun _ _ h => ⟨_, step_reset h, rfl, rfl, rfl, rfl, rfl, rfl, fun X => by cases X <;> rfl, rfl, rfl⟩

end Sys2Proof.Machine
end

section
/-! A command's result is a function of the configuration and the components its row of R41 reads (10_state.md R10): a relation
between the results of one stage in two states, shown stage by stage and composed for the composite commands. -/

namespace Sys2Proof.Machine

theorem SameValue.symm {s t : State} {c : Component} (h : SameValue s t c) : SameValue t s c := by
  cases c with
  | region X => cases X <;> exact Eq.symm h
  | _ => exact Eq.symm h

theorem SameValue.trans {s t u : State} {c : Component} (h : SameValue s t c) (h' : SameValue t u c) : SameValue s u c := by
  cases c with
  | region X => cases X <;> exact Eq.trans h h'
  | _ => exact Eq.trans h h'

/-- The end of a command writes `STATUS` alone (R154). -/
theorem sameValue_complete (e : Err) (s : State) (c : Component) : SameValue s (complete e s) c := by
  cases c with
  | region X => cases X <;> rfl
  | _ => rfl

/-- The results `r` and `r'` of a stage in the states `s` and `s'` have the same error and agree on the components in `W`, except
on a register where the stage fails and leaves it as it was in both. -/
def SameResult (W : Component → Bool) (s s' : State) (r r' : State × Err) : Prop :=
  r.2 = r'.2 ∧ ∀ c, W c = true → SameValue r.1 r'.1 c ∨
    (r.2 ≠ .noError ∧ (∀ X, c ≠ .region X) ∧ SameValue s r.1 c ∧ SameValue s' r'.1 c)

/-- The same relation for two runs of a command that are a stage and its end: what the statement asks. -/
theorem SameResult.of_exec {i : Instr} {s s' t t' : State} {r r' : State × Err} (h : SameResult (writesComponent i) s s' r r')
    (hr : exec i s = .next (complete r.2 r.1)) (hr' : exec i s' = .next (complete r'.2 r'.1))
    (ht : exec i s = .next t) (ht' : exec i s' = .next t') :
    t.status = t'.status ∧ ∀ c, writesComponent i c = true → SameValue t t' c ∨
      (t.errPin ≠ 0#3 ∧ (∀ X, c ≠ .region X) ∧ SameValue s t c ∧ SameValue s' t' c) := by
  rw [hr] at ht
  rw [hr'] at ht'
  cases ht
  cases ht'
  obtain ⟨herr, hval⟩ := h
  refine ⟨by rw [complete_status, complete_status, herr], fun c hc => ?_⟩
  rcases hval c hc with hsame | ⟨hfail, hreg, hs, hs'⟩
  · exact .inl ((sameValue_complete _ _ c).symm.trans (hsame.trans (sameValue_complete _ _ c)))
  · refine .inr ⟨?_, hreg, hs.trans (sameValue_complete _ _ c), hs'.trans (sameValue_complete _ _ c)⟩
    rw [complete_errPin]
    exact fun h0 => hfail (errCode_injective h0)

theorem SameResult.sameValue {W : Component → Bool} {s s' : State} {r r' : State × Err} {c : Component}
    (h : SameResult W s s' r r') (hr : r.2 = .noError) (hc : W c = true) : SameValue r.1 r'.1 c :=
  (h.2 c hc).resolve_right fun hfail => hfail.1 hr

/-- A second part of a command that writes the region `X` alone, and cannot end well where the first did not, extends the
agreement of the first part's results by `X`. -/
theorem SameResult.andThen {W W' : Component → Bool} {X : RegionName} {s s' : State} {r r' u u' : State × Err}
    (h : SameResult W s s' r r') (hu : SameResult (fun c => decide (c = .region X)) r.1 r'.1 u u')
    (hW : ∀ c, W' c = true → c ≠ .region X → W c = true) (hfail : r.2 ≠ .noError → u.2 ≠ .noError)
    (hkeep : ∀ c, c ≠ .region X → SameValue r.1 u.1 c) (hkeep' : ∀ c, c ≠ .region X → SameValue r'.1 u'.1 c) :
    SameResult W' s s' u u' := by
  refine ⟨hu.1, fun c hc => ?_⟩
  by_cases hX : c = .region X
  · exact .inl ((hu.2 c (decide_eq_true hX)).resolve_right fun hreg => hreg.2.1 X hX)
  · rcases h.2 c (hW c hc hX) with hsame | ⟨herr, hreg, hs, hs'⟩
    · exact .inl ((hkeep c hX).symm.trans (hsame.trans (hkeep' c hX)))
    · exact .inr ⟨hfail herr, hreg, hs.trans (hkeep c hX), hs'.trans (hkeep' c hX)⟩

/-! ### What a second part leaves as it was -/

theorem sameValue_setSeq (s : State) (r : Region Word) (c : Component) (h : c ≠ .region .seq) :
    SameValue s { s with seq := r } c := by
  cases c with
  | region X =>
    cases X with
    | seq => exact absurd rfl h
    | ctl | pay | env => rfl
  | _ => rfl

theorem sameValue_setEnv (s : State) (r : Region Byte) (c : Component) (h : c ≠ .region .env) :
    SameValue s { s with env := r } c := by
  cases c with
  | region X =>
    cases X with
    | env => exact absurd rfl h
    | seq | ctl | pay => rfl
  | _ => rfl

theorem sameValue_serStage (s : State) (c : Component) (h : c ≠ .region .env) : SameValue s (serStage s).1 c := by
  rcases serStage_cases s with ⟨-, hs⟩ | ⟨-, hs⟩ <;> rw [hs] <;> exact sameValue_setEnv s _ c h

theorem sameValue_decompStage (diff : Bool) (s : State) (c : Component) (h : c ≠ .region .seq) :
    SameValue s (decompStage diff s).1 c := by
  rcases decompStage_cases diff s with ⟨_, -, -, hs⟩ | ⟨_, -, -, hs⟩ | ⟨_, -, hs⟩ <;> rw [hs] <;> exact sameValue_setSeq s _ c h

/-! ### Outputs written alike in two states -/

theorem sameResult_setQ (s s' : State) (q : Quad) :
    SameResult (fun c => decide (c = .q)) s s' ({ s with q := q }, .noError) ({ s' with q := q }, .noError) := by
  refine ⟨rfl, fun c hc => .inl ?_⟩
  obtain rfl := of_decide_eq_true hc
  rfl

theorem sameResult_storeSeq (s s' : State) (l : List Word) (e : Err) :
    SameResult (fun c => decide (c = .region .seq)) s s' ({ s with seq := s.seq.store l }, e)
      ({ s' with seq := s'.seq.store l }, e) := by
  refine ⟨rfl, fun c hc => .inl ?_⟩
  obtain rfl := of_decide_eq_true hc
  exact (values_store freeWord s.seq l).trans (values_store freeWord s'.seq l).symm

theorem sameResult_storeEnv (s s' : State) (l : List Byte) (e : Err) :
    SameResult (fun c => decide (c = .region .env)) s s' ({ s with env := s.env.store l }, e)
      ({ s' with env := s'.env.store l }, e) := by
  refine ⟨rfl, fun c hc => .inl ?_⟩
  obtain rfl := of_decide_eq_true hc
  exact (values_store (freeByte .env) s.env l).trans (values_store (freeByte .env) s'.env l).symm

/-- The three parts of a compressed sequence, written together. -/
theorem sameResult_storeParts (s s' : State) (ctl pay : List Byte) (n : Word) :
    SameResult (fun c => decide (c ∈ [.ecount, .region .ctl, .region .pay])) s s'
      ({ s with ctl := s.ctl.store ctl, pay := s.pay.store pay, ecount := n }, .noError)
      ({ s' with ctl := s'.ctl.store ctl, pay := s'.pay.store pay, ecount := n }, .noError) := by
  refine ⟨rfl, fun c hc => .inl ?_⟩
  obtain rfl | rfl | rfl : c = .ecount ∨ c = .region .ctl ∨ c = .region .pay := by simpa using hc
  · rfl
  · exact (values_store (freeByte .ctl) s.ctl ctl).trans (values_store (freeByte .ctl) s'.ctl ctl).symm
  · exact (values_store (freeByte .pay) s.pay pay).trans (values_store (freeByte .pay) s'.pay pay).symm

/-- The parts after a failure: both regions empty, `ECOUNT` as it was in each state (R155). -/
theorem sameResult_clearParts (s s' : State) {e : Err} (he : e ≠ .noError) :
    SameResult (fun c => decide (c ∈ [.ecount, .region .ctl, .region .pay])) s s'
      ({ s with ctl := s.ctl.clear, pay := s.pay.clear }, e) ({ s' with ctl := s'.ctl.clear, pay := s'.pay.clear }, e) := by
  refine ⟨rfl, fun c hc => ?_⟩
  obtain rfl | rfl | rfl : c = .ecount ∨ c = .region .ctl ∨ c = .region .pay := by simpa using hc
  · exact .inr ⟨he, by simp, rfl, rfl⟩
  · exact .inl ((values_clear (freeByte .ctl) s.ctl).trans (values_clear (freeByte .ctl) s'.ctl).symm)
  · exact .inl ((values_clear (freeByte .pay) s.pay).trans (values_clear (freeByte .pay) s'.pay).symm)

/-! ### Stages: the case and the outputs depend on the configuration and the components read -/

section
variable {s s' : State} (hcfg : s.cfg = s'.cfg)
include hcfg

theorem sameResult_compStage (diff : Bool) (hseq : SameValue s s' (.region .seq)) :
    SameResult (writesComponent (.comp diff)) s s' (compStage diff s) (compStage diff s') := by
  have hval : s'.seqVal = s.seqVal := hseq.symm
  have hlen : s'.seq.len = s.seq.len := by rw [← length_seqVal, hval, length_seqVal]
  have hcap : s'.cfg.cap = s.cfg.cap := by rw [hcfg]
  have hout : compress s'.cfg.ctrlOrder diff s'.seqVal = compress s.cfg.ctrlOrder diff s.seqVal := by rw [hcfg, hval]
  simp only [compStage, hcap, hout, hlen]
  split
  · exact sameResult_storeParts s s' _ _ _
  · exact sameResult_clearParts s s' (by simp)

theorem sameResult_deserStage (henv : SameValue s s' (.region .env)) :
    SameResult (writesComponent .deser) s s' (deserStage s) (deserStage s') := by
  have hval : s'.envVal = s.envVal := henv.symm
  have hcap : s'.cfg.cap = s.cfg.cap := by rw [hcfg]
  simp only [deserStage, hcap, hval]
  cases deserialize s.envVal with
  | none => exact sameResult_clearParts s s' (by simp)
  | some r =>
    dsimp only
    split
    · exact sameResult_storeParts s s' _ _ _
    · exact sameResult_clearParts s s' (by simp)

theorem sameResult_decompStage (diff : Bool) (hec : SameValue s s' .ecount) (hctl : SameValue s s' (.region .ctl))
    (hpay : SameValue s s' (.region .pay)) :
    SameResult (writesComponent (.decomp diff)) s s' (decompStage diff s) (decompStage diff s') := by
  have hn : s'.ecount.toNat = s.ecount.toNat := congrArg BitVec.toNat hec.symm
  have hc : s'.ctlVal = s.ctlVal := hctl.symm
  have hp : s'.payVal = s.payVal := hpay.symm
  have hcap : s'.cfg.cap = s.cfg.cap := by rw [hcfg]
  have horder : s'.cfg.ctrlOrder = s.cfg.ctrlOrder := by rw [hcfg]
  simp only [decompStage, hcap, horder, hn, hc, hp]
  cases decompress s.cfg.ctrlOrder diff s.payVal s.ctlVal s.ecount.toNat with
  | error e => exact sameResult_storeSeq s s' [] e
  | ok out =>
    dsimp only
    split
    · exact sameResult_storeSeq s s' out .noError
    · exact sameResult_storeSeq s s' [] .regionOverflow

theorem sameResult_serStage (hec : SameValue s s' .ecount) (hctl : SameValue s s' (.region .ctl))
    (hpay : SameValue s s' (.region .pay)) : SameResult (writesComponent .ser) s s' (serStage s) (serStage s') := by
  have hcap : s'.cfg.cap = s.cfg.cap := by rw [hcfg]
  have hout : serialize s'.payVal s'.ctlVal s'.ecount = serialize s.payVal s.ctlVal s.ecount := by
    rw [show s'.ecount = s.ecount from hec.symm, show s'.ctlVal = s.ctlVal from hctl.symm, show s'.payVal = s.payVal from hpay.symm]
  simp only [serStage, hcap, hout]
  split
  · exact sameResult_storeEnv s s' _ .noError
  · exact sameResult_storeEnv s s' [] .regionOverflow

end

/-! ### Commands -/

/-- The command `i` runs in `s` and `s'` as a stage and its end each, with results that agree on what `i` writes. -/
def ResultDetermined (i : Instr) (s s' : State) : Prop :=
  ∃ r r' : State × Err, exec i s = .next (complete r.2 r.1) ∧ exec i s' = .next (complete r'.2 r'.1) ∧
    SameResult (writesComponent i) s s' r r'

/-- A command whose one effect is to replace `Q` by a function of `Q`. -/
theorem resultDetermined_of_setQ {i : Instr} {s s' : State} (f : Quad → Quad)
    (hx : ∀ u : State, exec i u = .next (complete .noError { u with q := f u.q }))
    (hW : writesComponent i = fun c => decide (c = .q)) (hq : SameValue s s' .q) : ResultDetermined i s s' := by
  have hq : s'.q = s.q := hq.symm
  refine ⟨(_, .noError), (_, .noError), hx s, hx s', ?_⟩
  rw [hW, hq]
  exact sameResult_setQ s s' (f s.q)

section
variable {s s' : State} (hcfg : s.cfg = s'.cfg)
include hcfg

theorem resultDetermined_qenc (hq : SameValue s s' .q) : ResultDetermined .qenc s s' := by
  have hq : s.q = s'.q := hq
  cases hf : fits (s.cfg.cap .pay) (quadEncode s.cfg.ctrlOrder s.q).1.length with
  | true =>
    refine ⟨(_, .noError), (_, .noError), execQenc_fits s hf, execQenc_fits s' (by rwa [← hcfg, ← hq]), rfl, fun c hc => .inl ?_⟩
    obtain rfl | rfl | rfl : c = .ctrlb ∨ c = .nbytes ∨ c = .region .pay := by simpa [writesComponent] using hc
    · simp [SameValue, hcfg, hq]
    · simp [SameValue, hcfg, hq]
    · simp [SameValue, State.payVal, hcfg, hq]
  | false =>
    refine ⟨(_, .regionOverflow), (_, .regionOverflow), execQenc_overflow s hf, execQenc_overflow s' (by rwa [← hcfg, ← hq]), rfl,
      fun c hc => ?_⟩
    obtain rfl | rfl | rfl : c = .ctrlb ∨ c = .nbytes ∨ c = .region .pay := by simpa [writesComponent] using hc
    · exact .inr ⟨by simp, by simp, rfl, rfl⟩
    · exact .inr ⟨by simp, by simp, rfl, rfl⟩
    · exact .inl (by simp [SameValue, State.payVal])

theorem resultDetermined_qdec (hcb : SameValue s s' .ctrlb) (hpay : SameValue s s' (.region .pay)) :
    ResultDetermined .qdec s s' := by
  have hdec : quadDecode s'.cfg.ctrlOrder s'.payVal s'.ctrlb = quadDecode s.cfg.ctrlOrder s.payVal s.ctrlb := by
    rw [hcfg, show s.payVal = s'.payVal from hpay, show s.ctrlb = s'.ctrlb from hcb]
  cases hd : quadDecode s.cfg.ctrlOrder s.payVal s.ctrlb with
  | none =>
    refine ⟨(s, .truncatedInput), (s', .truncatedInput), execQdec_truncated s hd, execQdec_truncated s' (hdec.trans hd), rfl,
      fun c hc => .inr ?_⟩
    obtain rfl | rfl : c = .q ∨ c = .nbytes := by simpa [writesComponent] using hc
    · exact ⟨by simp, by simp, rfl, rfl⟩
    · exact ⟨by simp, by simp, rfl, rfl⟩
  | some r =>
    obtain ⟨v, n⟩ := r
    refine ⟨(_, .noError), (_, .noError), execQdec_ok s v n hd, execQdec_ok s' v n (hdec.trans hd), rfl, fun c hc => .inl ?_⟩
    obtain rfl | rfl : c = .q ∨ c = .nbytes := by simpa [writesComponent] using hc
    · rfl
    · rfl

theorem resultDetermined_compenv (diff : Bool) (hseq : SameValue s s' (.region .seq)) : ResultDetermined (.compenv diff) s s' := by
  have h1 := sameResult_compStage hcfg diff hseq
  have hcfg1 : (compStage diff s).1.cfg = (compStage diff s').1.cfg := by
    rw [(preserves_compStage diff s).cfg, (preserves_compStage diff s').cfg, hcfg]
  have hW : ∀ c, writesComponent (.compenv diff) c = true → c ≠ .region .env → writesComponent (.comp diff) c = true := by
    intro c hc hne
    simpa [writesComponent, hne] using hc
  rcases hr : compStage diff s with ⟨s1, e⟩
  rcases hr' : compStage diff s' with ⟨s1', e'⟩
  rw [hr, hr'] at h1 hcfg1
  obtain rfl : e = e' := h1.1
  by_cases he : e = .noError
  · subst he
    have h2 := sameResult_serStage hcfg1 (h1.sameValue rfl rfl) (h1.sameValue rfl rfl) (h1.sameValue rfl rfl)
    exact ⟨_, _, execCompenv_second hr, execCompenv_second hr',
      h1.andThen h2 hW (absurd rfl) (sameValue_serStage s1) (sameValue_serStage s1')⟩
  · exact ⟨(_, e), (_, e), execCompenv_first hr he, execCompenv_first hr' he,
      h1.andThen (sameResult_storeEnv s1 s1' [] e) hW id (sameValue_setEnv s1 _) (sameValue_setEnv s1' _)⟩

theorem resultDetermined_decompenv (diff : Bool) (henv : SameValue s s' (.region .env)) :
    ResultDetermined (.decompenv diff) s s' := by
  have h1 := sameResult_deserStage hcfg henv
  have hcfg1 : (deserStage s).1.cfg = (deserStage s').1.cfg := by
    rw [(preserves_deserStage s).cfg, (preserves_deserStage s').cfg, hcfg]
  have hW : ∀ c, writesComponent (.decompenv diff) c = true → c ≠ .region .seq → writesComponent .deser c = true := by
    intro c hc hne
    simpa [writesComponent, hne] using hc
  rcases hr : deserStage s with ⟨s1, e⟩
  rcases hr' : deserStage s' with ⟨s1', e'⟩
  rw [hr, hr'] at h1 hcfg1
  obtain rfl : e = e' := h1.1
  by_cases he : e = .noError
  · subst he
    have h2 := sameResult_decompStage hcfg1 diff (h1.sameValue rfl rfl) (h1.sameValue rfl rfl) (h1.sameValue rfl rfl)
    exact ⟨_, _, execDecompenv_second hr, execDecompenv_second hr',
      h1.andThen h2 hW (absurd rfl) (sameValue_decompStage diff s1) (sameValue_decompStage diff s1')⟩
  · exact ⟨(_, e), (_, e), execDecompenv_first hr he, execDecompenv_first hr' he,
      h1.andThen (sameResult_storeSeq s1 s1' [] e) hW id (sameValue_setSeq s1 _) (sameValue_setSeq s1' _)⟩

theorem resultDetermined_of_reads {i : Instr} (h : ∀ c, readsComponent i c = true → SameValue s s' c) :
    ResultDetermined i s s' := by
  cases i with
  | qenc => exact resultDetermined_qenc hcfg (h _ rfl)
  | qdec => exact resultDetermined_qdec hcfg (h _ rfl) (h _ rfl)
  | denc diff r =>
    cases diff
    · exact resultDetermined_of_setQ id (exec_denc false r) rfl (h _ rfl)
    · exact resultDetermined_of_setQ (deltaFwd · r) (exec_denc true r) rfl (h _ rfl)
  | ddec diff =>
    cases diff
    · exact resultDetermined_of_setQ id (exec_ddec false) rfl (h _ rfl)
    · exact resultDetermined_of_setQ deltaInv (exec_ddec true) rfl (h _ rfl)
  | comp diff => exact ⟨_, _, exec_comp diff s, exec_comp diff s', sameResult_compStage hcfg diff (h _ rfl)⟩
  | decomp diff =>
    exact ⟨_, _, exec_decomp diff s, exec_decomp diff s', sameResult_decompStage hcfg diff (h _ rfl) (h _ rfl) (h _ rfl)⟩
  | ser => exact ⟨_, _, exec_ser s, exec_ser s', sameResult_serStage hcfg (h _ rfl) (h _ rfl) (h _ rfl)⟩
  | deser => exact ⟨_, _, exec_deser s, exec_deser s', sameResult_deserStage hcfg (h _ rfl)⟩
  | compenv diff => exact resultDetermined_compenv hcfg diff (h _ rfl)
  | decompenv diff => exact resultDetermined_decompenv hcfg diff (h _ rfl)

end

/-- Settles O58: every command is a part and its end, and the parts' results agree. -/
theorem resultDependsOnNamedInputsOnly : Obligations.ResultDependsOnNamedInputsOnly := by
  intro i s s' t t' hcfg hreads ht ht'
  obtain ⟨r, r', hr, hr', hres⟩ := resultDetermined_of_reads hcfg hreads
  exact hres.of_exec hr hr' ht ht'

end Sys2Proof.Machine
end

section
/-! The bytes of a value (20_memory.md R42, R43). -/

namespace Sys2Proof.Machine

/-- R42's byte order: byte `j` has the weight `256^j`. -/
theorem getElem?_leBytes (v : Word) {k j : Nat} (h : j < k) : (leBytes v k)[j]? = some (BitVec.ofNat 8 (v.toNat / 256 ^ j)) := by
  induction k generalizing v j with
  | zero => exact absurd h (Nat.not_lt_zero j)
  | succ k ih =>
    cases j with
    | zero => simp [leBytes]
    | succ j =>
      have hshift : (v >>> 8).toNat / 256 ^ j = v.toNat / 256 ^ (j + 1) := by
        rw [BitVec.toNat_ushiftRight, Nat.shiftRight_eq_div_pow, Nat.div_div_eq_div_mul, Nat.pow_succ' (n := j)]
      rw [leBytes, List.getElem?_cons_succ, ih (v >>> 8) (Nat.lt_of_succ_lt_succ h), hshift]

theorem leWord_leBytes {v : Word} {k : Nat} (hk : k ≤ 4) (hv : v.toNat < 256 ^ k) : leWord (leBytes v k) = v := by
  apply BitVec.eq_of_toNat_eq
  rw [leWord_toNat _ (by rwa [leBytes_length]), leValue_leBytes, Nat.mod_eq_of_lt hv]

/-- Settles O7: each byte by `getElem?_leBytes`, the way back by `leWord_leBytes`. -/
theorem storedValueComesBack : Obligations.StoredValueComesBack :=
  fun v k hk => ⟨leBytes_length v k, fun _ hj => getElem?_leBytes v hj, leWord_leBytes hk⟩

end Sys2Proof.Machine
end

section
/-! The footprint of the commands (20_memory.md R41): a relation between the state before a command and each state on its way, kept
by every write of a component that the command's row marks with `w`; and with it that no command but `DENC` and `DDEC` reads what
it writes, so that a second run repeats the first (R46). -/

namespace Sys2Proof.Machine

/-- From `s` to `t` no component outside `W` changes, and outside the components nothing but `STATUS`. A region that is not in `W`
is the same as a whole, the storage beyond its length included. -/
structure ChangesOnly (W : Component → Bool) (s t : State) : Prop where
  q : W .q = true ∨ t.q = s.q
  ctrlb : W .ctrlb = true ∨ t.ctrlb = s.ctrlb
  nbytes : W .nbytes = true ∨ t.nbytes = s.nbytes
  ecount : W .ecount = true ∨ t.ecount = s.ecount
  seq : W (.region .seq) = true ∨ t.seq = s.seq
  ctl : W (.region .ctl) = true ∨ t.ctl = s.ctl
  pay : W (.region .pay) = true ∨ t.pay = s.pay
  env : W (.region .env) = true ∨ t.env = s.env
  outside : SameOutside s t

section
variable {W : Component → Bool} {s t : State}

theorem ChangesOnly.refl (W : Component → Bool) (s : State) : ChangesOnly W s s :=
  ⟨.inr rfl, .inr rfl, .inr rfl, .inr rfl, .inr rfl, .inr rfl, .inr rfl, .inr rfl, rfl, rfl, rfl, rfl, rfl, rfl⟩

theorem ChangesOnly.untouched (h : ChangesOnly W s t) {c : Component} (hc : W c = false) : Untouched s t c := by
  replace hc := Bool.eq_false_iff.mp hc
  cases c with
  | q => exact h.q.resolve_left hc
  | ctrlb => exact h.ctrlb.resolve_left hc
  | nbytes => exact h.nbytes.resolve_left hc
  | ecount => exact h.ecount.resolve_left hc
  | region X =>
    cases X with
    | seq => simp [Untouched, State.regionLen, State.readElem, h.seq.resolve_left hc]
    | ctl => simp [Untouched, State.regionLen, State.readElem, h.ctl.resolve_left hc]
    | pay => simp [Untouched, State.regionLen, State.readElem, h.pay.resolve_left hc]
    | env => simp [Untouched, State.regionLen, State.readElem, h.env.resolve_left hc]

/-- Elements below the length, and the length, make up a region's value. -/
theorem values_eq_of_toNat_elem {w : Nat} {free : Nat → Nat → BitVec w} {r r' : Region (BitVec w)} (hlen : r'.len = r.len)
    (helem : ∀ i, (r'.elem free i).toNat = (r.elem free i).toNat) : r.values free = r'.values free := by
  simp only [Region.values, hlen]
  exact List.map_congr_left fun i _ => BitVec.eq_of_toNat_eq (helem i).symm

/-- An untouched component holds the same value. -/
theorem Untouched.sameValue {c : Component} (h : Untouched s t c) : SameValue s t c := by
  cases c with
  | region X => cases X <;> exact values_eq_of_toNat_elem h.1 h.2
  | q | ctrlb | nbytes | ecount => exact Eq.symm h

/-! ### Stages: each writes its output components alone -/

theorem ChangesOnly.complete (h : ChangesOnly W s t) (e : Err) : ChangesOnly W s (complete e t) :=
  { h with }

theorem ChangesOnly.compStage (h : ChangesOnly W s t) (diff : Bool) (hec : W .ecount = true) (hctl : W (.region .ctl) = true)
    (hpay : W (.region .pay) = true) : ChangesOnly W s (compStage diff t).1 := by
  rcases compStage_cases diff t with ⟨-, -, ht⟩ | ⟨-, ht⟩ <;> rw [ht]
  · exact { h with ecount := .inl hec, ctl := .inl hctl, pay := .inl hpay }
  · exact { h with ctl := .inl hctl, pay := .inl hpay }

theorem ChangesOnly.decompStage (h : ChangesOnly W s t) (diff : Bool) (hseq : W (.region .seq) = true) :
    ChangesOnly W s (decompStage diff t).1 := by
  rcases decompStage_cases diff t with ⟨_, -, -, ht⟩ | ⟨_, -, -, ht⟩ | ⟨_, -, ht⟩ <;> rw [ht] <;>
    exact { h with seq := .inl hseq }

theorem ChangesOnly.serStage (h : ChangesOnly W s t) (henv : W (.region .env) = true) : ChangesOnly W s (serStage t).1 := by
  rcases serStage_cases t with ⟨-, ht⟩ | ⟨-, ht⟩ <;> rw [ht] <;> exact { h with env := .inl henv }

theorem ChangesOnly.deserStage (h : ChangesOnly W s t) (hec : W .ecount = true) (hctl : W (.region .ctl) = true)
    (hpay : W (.region .pay) = true) : ChangesOnly W s (deserStage t).1 := by
  rcases deserStage_cases t with ⟨_, _, _, -, -, -, ht⟩ | ⟨_, _, _, -, -, ht⟩ | ⟨-, ht⟩ <;> rw [ht]
  · exact { h with ecount := .inl hec, ctl := .inl hctl, pay := .inl hpay }
  · exact { h with ctl := .inl hctl, pay := .inl hpay }
  · exact { h with ctl := .inl hctl, pay := .inl hpay }

/-- The end of a command, whichever its error, leaves the footprint as it is. -/
theorem ChangesOnly.of_exec {i : Instr} {u : State} {e : Err} (hx : exec i s = .next (Machine.complete e u))
    (hu : ChangesOnly W s u) (h : exec i s = .next t) : ChangesOnly W s t := by
  rw [hx] at h
  cases h
  exact hu.complete e

/-! ### Commands -/

theorem changesOnly_qenc (h : exec .qenc s = .next t) : ChangesOnly (writesComponent .qenc) s t := by
  cases hf : fits (s.cfg.cap .pay) (quadEncode s.cfg.ctrlOrder s.q).1.length with
  | true =>
    exact .of_exec (execQenc_fits s hf) { ChangesOnly.refl _ s with pay := .inl rfl, ctrlb := .inl rfl, nbytes := .inl rfl } h
  | false => exact .of_exec (execQenc_overflow s hf) { ChangesOnly.refl _ s with pay := .inl rfl } h

theorem changesOnly_qdec (h : exec .qdec s = .next t) : ChangesOnly (writesComponent .qdec) s t := by
  cases hd : quadDecode s.cfg.ctrlOrder s.payVal s.ctrlb with
  | none => exact .of_exec (execQdec_truncated s hd) (.refl _ s) h
  | some r => exact .of_exec (execQdec_ok s r.1 r.2 hd) { ChangesOnly.refl _ s with q := .inl rfl, nbytes := .inl rfl } h

theorem changesOnly_compenv {diff : Bool} (h : exec (.compenv diff) s = .next t) :
    ChangesOnly (writesComponent (.compenv diff)) s t := by
  have h1 := (ChangesOnly.refl (writesComponent (.compenv diff)) s).compStage diff rfl rfl rfl
  rcases hc : compStage diff s with ⟨s1, e⟩
  rw [hc] at h1
  by_cases he : e = .noError
  · subst he
    exact .of_exec (execCompenv_second hc) (h1.serStage rfl) h
  · exact .of_exec (execCompenv_first hc he) { h1 with env := .inl rfl } h

theorem changesOnly_decompenv {diff : Bool} (h : exec (.decompenv diff) s = .next t) :
    ChangesOnly (writesComponent (.decompenv diff)) s t := by
  have h1 := (ChangesOnly.refl (writesComponent (.decompenv diff)) s).deserStage rfl rfl rfl
  rcases hc : deserStage s with ⟨s1, e⟩
  rw [hc] at h1
  by_cases he : e = .noError
  · subst he
    exact .of_exec (execDecompenv_second hc) (h1.decompStage diff rfl) h
  · exact .of_exec (execDecompenv_first hc he) { h1 with seq := .inl rfl } h

theorem changesOnly_exec {i : Instr} (h : exec i s = .next t) : ChangesOnly (writesComponent i) s t := by
  cases i with
  | qenc => exact changesOnly_qenc h
  | qdec => exact changesOnly_qdec h
  | denc diff r =>
    cases diff
    · exact .of_exec (exec_denc false r s) (.refl _ s) h
    · exact .of_exec (exec_denc true r s) { ChangesOnly.refl _ s with q := .inl rfl } h
  | ddec diff =>
    cases diff
    · exact .of_exec (exec_ddec false s) (.refl _ s) h
    · exact .of_exec (exec_ddec true s) { ChangesOnly.refl _ s with q := .inl rfl } h
  | comp diff => exact .of_exec (exec_comp diff s) ((ChangesOnly.refl _ s).compStage diff rfl rfl rfl) h
  | decomp diff => exact .of_exec (exec_decomp diff s) ((ChangesOnly.refl _ s).decompStage diff rfl) h
  | ser => exact .of_exec (exec_ser s) ((ChangesOnly.refl _ s).serStage rfl) h
  | deser => exact .of_exec (exec_deser s) ((ChangesOnly.refl _ s).deserStage rfl rfl rfl) h
  | compenv diff => exact changesOnly_compenv h
  | decompenv diff => exact changesOnly_decompenv h

end

/-- Settles O57: every command is a part and its end, and each part writes inside the row of R41. -/
theorem commandsKeepToTheirFootprint : Obligations.CommandsKeepToTheirFootprint :=
  fun _ _ _ h => ⟨fun _ hc => (changesOnly_exec h).untouched hc, (changesOnly_exec h).outside⟩

/-! ### A second run -/

/-- No row of R41 but those of `DENC` and `DDEC` marks a component with both `r` and `w`. -/
theorem not_writesComponent_of_readsComponent {i : Instr} (hdenc : ∀ d r, i ≠ .denc d r) (hddec : ∀ d, i ≠ .ddec d)
    {c : Component} (hc : readsComponent i c = true) : writesComponent i c = false := by
  cases i with
  | denc d r => exact absurd rfl (hdenc d r)
  | ddec d => exact absurd rfl (hddec d)
  | qenc | comp | deser | compenv | decompenv =>
    obtain rfl := of_decide_eq_true hc
    rfl
  | qdec =>
    obtain rfl | rfl : c = .ctrlb ∨ c = .region .pay := by simpa [readsComponent] using hc
    · rfl
    · rfl
  | decomp | ser =>
    obtain rfl | rfl | rfl : c = .ecount ∨ c = .region .ctl ∨ c = .region .pay := by simpa [readsComponent] using hc
    · rfl
    · rfl
    · rfl

/-- Settles O59: the first run leaves what the command reads as it was (O57), so the second ends with the same outputs (O58); what
the command does not write stays in both. -/
theorem commandsAreIdempotent : Obligations.CommandsAreIdempotent := by
  intro i s t u hdenc hddec ht hu
  obtain ⟨hfirst, hout⟩ := commandsKeepToTheirFootprint i s t ht
  obtain ⟨hsecond, -⟩ := commandsKeepToTheirFootprint i t u hu
  have hreads : ∀ c, readsComponent i c = true → SameValue s t c := fun c hc =>
    (hfirst c (not_writesComponent_of_readsComponent hdenc hddec hc)).sameValue
  obtain ⟨hstatus, hwritten⟩ := resultDependsOnNamedInputsOnly i s t t u hout.1.symm hreads ht hu
  refine ⟨hstatus.symm, fun c => ?_⟩
  cases hc : writesComponent i c with
  | false => exact (hsecond c hc).sameValue
  | true => exact (hwritten c hc).elim id fun ⟨_, _, _, hsame⟩ => hsame

end Sys2Proof.Machine
end

section
/-! Where the model stops at a bounded capacity (20_memory.md R40; log 7). -/

namespace Sys2Proof.Machine

theorem regionRead_no_element {s : State} {X : RegionName} {i : Nat} (h : s.regionLen X ≤ i)
    (hi : indexExists (s.cfg.cap X) i = false) : perform (.regionRead X i) s = .fault .noSuchElement := by
  simp [perform, regionRead, Nat.not_lt.mpr h, hi]

theorem regionWrite_no_element {s : State} {X : RegionName} {i : Nat} (v : Nat) (hi : indexExists (s.cfg.cap X) i = false) :
    perform (.regionWrite X i v) s = .refused .writeBeyondCapacity := by
  simp [perform, regionWrite, hi]

theorem regWrite_len_above {s : State} {X : RegionName} {m : Fin 64} {n : Nat} (hm : regOf m = .len X)
    (hn : fits (s.cfg.cap X) n = false) : perform (.regWrite m n) s = .refused .lengthAboveCapacity := by
  simp [perform, regWrite, hm, hn]

/-- Settles O53: the index is not below the capacity, and the length above it is not within it. -/
theorem noMoveBeyondTheCapacity : Obligations.NoMoveBeyondTheCapacity := by
  intro s X i v n hcap hi hlen
  have hindex : indexExists (s.cfg.cap X) i = false := by simp [indexExists, hcap, hi]
  have hfits : fits (s.cfg.cap X) (i + 1) = false := by simp [fits, hcap, hi]
  exact ⟨regionRead_no_element hlen hindex, regionWrite_no_element v hindex, fun _ hm => ⟨hfits, regWrite_len_above hm hfits⟩⟩

end Sys2Proof.Machine
end

section
/-! The command byte (30_encoding.md R65 to R70): its fields as numbers, what the decoder accepts in terms of the encoder, and the
rows of R66. -/

namespace Sys2Proof

/-! ### The fields of a byte (R65) -/

/-- A concatenation as a number: the upper part weighs `2 ^ n`. -/
theorem toNat_append_eq_mul_add {m n : Nat} (x : BitVec m) (y : BitVec n) : (x ++ y).toNat = x.toNat * 2 ^ n + y.toNat := by
  rw [BitVec.toNat_append, ← Nat.shiftLeft_add_eq_or_of_lt y.isLt, Nat.shiftLeft_eq]

theorem toNat_cmd8 (op : Nat) (diff : Bool) (rm1 : Nat) :
    (cmd8 op diff rm1).toNat = 32 * (rm1 % 4) + 16 * diff.toNat + op % 16 := by
  simp only [cmd8, toNat_append_eq_mul_add, BitVec.toNat_ofNat, BitVec.toNat_ofBool]
  omega

theorem cmdOp_eq (c : Byte) : cmdOp c = c.toNat % 16 := by
  simp [cmdOp]

theorem toNat_cmdDiff (c : Byte) : (cmdDiff c).toNat = c.toNat / 16 % 2 := by
  rw [cmdDiff, ← BitVec.testBit_toNat, Nat.toNat_testBit]

theorem cmdRm1_eq (c : Byte) : cmdRm1 c = c.toNat / 32 % 4 := by
  simp [cmdRm1, Nat.shiftRight_eq_div_pow]

theorem toNat_getLsbD_seven (c : Byte) : (c.getLsbD 7).toNat = c.toNat / 128 := by
  rw [← BitVec.testBit_toNat, Nat.toNat_testBit]
  omega

@[simp] theorem getElem_seven_cmd8 (op : Nat) (diff : Bool) (rm1 : Nat) : (cmd8 op diff rm1)[7] = false := by
  rw [← BitVec.getLsbD_eq_getElem]
  have h := toNat_getLsbD_seven (cmd8 op diff rm1)
  rw [toNat_cmd8] at h
  have := diff.toNat_le
  exact Bool.toNat_eq_zero.mp (by omega)

@[simp] theorem cmdOp_cmd8 (op : Nat) (diff : Bool) (rm1 : Nat) : cmdOp (cmd8 op diff rm1) = op % 16 := by
  rw [cmdOp_eq, toNat_cmd8]
  omega

@[simp] theorem cmdDiff_cmd8 (op : Nat) (diff : Bool) (rm1 : Nat) : cmdDiff (cmd8 op diff rm1) = diff := by
  have h := toNat_cmdDiff (cmd8 op diff rm1)
  have := diff.toNat_le
  rw [toNat_cmd8] at h
  exact Function.LeftInverse.injective Bool.ofNat_toNat (by omega)

@[simp] theorem cmdRm1_cmd8 (op : Nat) (diff : Bool) (rm1 : Nat) : cmdRm1 (cmd8 op diff rm1) = rm1 % 4 := by
  have := diff.toNat_le
  rw [cmdRm1_eq, toNat_cmd8]
  omega

theorem cmdRm1_lt (c : Byte) : cmdRm1 c < 4 := (c.extractLsb' 5 2).isLt

/-- A byte with bit 7 clear is the byte of its fields. -/
theorem cmd8_fields {c : Byte} (h : c.getLsbD 7 = false) : cmd8 (cmdOp c) (cmdDiff c) (cmdRm1 c) = c := by
  have h7 := toNat_getLsbD_seven c
  rw [h, Bool.toNat_false] at h7
  apply BitVec.eq_of_toNat_eq
  rw [toNat_cmd8, toNat_cmdDiff, cmdOp_eq, cmdRm1_eq]
  omega

/-! ### What the decoder accepts (R66, R67, R70) -/

theorem wellFormed_denc_iff {diff : Bool} {r : Nat} : (Instr.denc diff r).wellFormed = true ↔ 1 ≤ r ∧ r ≤ 4 := by
  simp [Instr.wellFormed]

theorem decode_encode {i : Instr} (h : i.wellFormed = true) : decode (encode i) = .ok i := by
  cases i with
  | denc diff r =>
    have hr : (r - 1) % 4 + 1 = r := by
      have := wellFormed_denc_iff.mp h
      omega
    simp [encode, decode, hr]
  | _ => simp [encode, decode, decodeBare, decodeDiff]

/-- An accepted command that uses no operand has both operand fields zero. -/
theorem encode_of_decodeBare {c : Byte} {op : Nat} {i j : Instr} (h7 : c.getLsbD 7 = false) (hop : cmdOp c = op)
    (h : decodeBare c i = .ok j) (hwf : i.wellFormed = true) (hi : encode i = cmd8 op false 0) :
    j.wellFormed = true ∧ encode j = c := by
  unfold decodeBare at h
  split_ifs at h with hdiff hrm1
  cases h
  rw [Bool.not_eq_true] at hdiff
  rw [not_not] at hrm1
  rw [hi, ← hop, ← hdiff, ← hrm1]
  exact ⟨hwf, cmd8_fields h7⟩

/-- An accepted command that uses `diff` only has `rm1` zero. -/
theorem encode_of_decodeDiff {c : Byte} {op : Nat} {i : Bool → Instr} {j : Instr} (h7 : c.getLsbD 7 = false)
    (hop : cmdOp c = op) (h : decodeDiff c i = .ok j) (hwf : ∀ d, (i d).wellFormed = true)
    (hi : ∀ d, encode (i d) = cmd8 op d 0) : j.wellFormed = true ∧ encode j = c := by
  unfold decodeDiff at h
  split_ifs at h with hrm1
  cases h
  rw [not_not] at hrm1
  rw [hi, ← hop, ← hrm1]
  exact ⟨hwf _, cmd8_fields h7⟩

/-- An accepted byte is the command's byte: one arm of the decoder per row of R66, each by the fields the arm has tested. -/
theorem encode_of_decode {c : Byte} {i : Instr} (h : decode c = .ok i) : i.wellFormed = true ∧ encode i = c := by
  unfold decode at h
  split at h
  next => cases h
  next hbit =>
    have h7 : c.getLsbD 7 = false := by simpa using hbit
    split at h
    next hop => exact encode_of_decodeBare h7 hop h rfl rfl
    next hop => exact encode_of_decodeBare h7 hop h rfl rfl
    next hop =>
      cases h
      exact ⟨wellFormed_denc_iff.mpr ⟨Nat.le_add_left _ _, cmdRm1_lt c⟩,
        (congrArg (cmd8 · _ _) hop.symm).trans (cmd8_fields h7)⟩
    next hop => exact encode_of_decodeDiff h7 hop h (fun _ => rfl) (fun _ => rfl)
    next hop => exact encode_of_decodeDiff h7 hop h (fun _ => rfl) (fun _ => rfl)
    next hop => exact encode_of_decodeDiff h7 hop h (fun _ => rfl) (fun _ => rfl)
    next hop => exact encode_of_decodeBare h7 hop h rfl rfl
    next hop => exact encode_of_decodeBare h7 hop h rfl rfl
    next hop => exact encode_of_decodeDiff h7 hop h (fun _ => rfl) (fun _ => rfl)
    next hop => exact encode_of_decodeDiff h7 hop h (fun _ => rfl) (fun _ => rfl)
    next => cases h

theorem decode_eq_ok_iff {c : Byte} {i : Instr} : decode c = .ok i ↔ i.wellFormed = true ∧ encode i = c :=
  ⟨encode_of_decode, fun ⟨hwf, hc⟩ => hc ▸ decode_encode hwf⟩

/-- Settles O1: the two directions of `decode_eq_ok_iff`. -/
theorem decodeEncodeRoundTrip : Obligations.DecodeEncodeRoundTrip :=
  ⟨fun _ => decode_encode, fun _ _ => encode_of_decode⟩

/-! ### The legal bytes (R67) -/

/-- The well-formed commands, in the order in which R67 lists their bytes. -/
def legalCommands : List Instr :=
  [.qenc, .qdec, .ser, .deser, .ddec false, .ddec true, .comp false, .comp true, .decomp false, .decomp true,
   .compenv false, .compenv true, .decompenv false, .decompenv true, .denc false 1, .denc true 1, .denc false 2, .denc true 2,
   .denc false 3, .denc true 3, .denc false 4, .denc true 4]

theorem mem_legalCommands_iff {i : Instr} : i ∈ legalCommands ↔ i.wellFormed = true := by
  constructor
  · exact fun h => (by decide : ∀ j ∈ legalCommands, j.wellFormed = true) i h
  · intro h
    cases i with
    | denc diff r =>
      obtain ⟨h1, h4⟩ := wellFormed_denc_iff.mp h
      interval_cases r <;> cases diff <;> decide
    | qenc | qdec | ser | deser => decide
    | ddec diff | comp diff | decomp diff | compenv diff | decompenv diff => cases diff <;> decide

theorem exists_decode_iff {c : Byte} : (∃ i, decode c = .ok i) ↔ c ∈ legalCommands.map encode := by
  simp only [decode_eq_ok_iff, List.mem_map, mem_legalCommands_iff]

/-! ### The rows of the table (R66) -/

/-- R66: a command's byte agrees with its row. -/
theorem encode_and_mask {i : Instr} (h : i.wellFormed = true) : encode i &&& (maskMatch i).1 = (maskMatch i).2 :=
  (by decide : ∀ j ∈ legalCommands, encode j &&& (maskMatch j).1 = (maskMatch j).2) i (mem_legalCommands_iff.mpr h)

theorem cmdOp_and {mask : Byte} (hmask : mask.extractLsb' 0 4 = BitVec.allOnes 4) (c : Byte) : cmdOp (c &&& mask) = cmdOp c := by
  rw [cmdOp, BitVec.extractLsb'_and, hmask, BitVec.and_allOnes, cmdOp]

theorem cmdRm1_and {mask : Byte} (hmask : mask.extractLsb' 5 2 = BitVec.allOnes 2) (c : Byte) :
    cmdRm1 (c &&& mask) = cmdRm1 c := by
  rw [cmdRm1, BitVec.extractLsb'_and, hmask, BitVec.and_allOnes, cmdRm1]

theorem getLsbD_seven_and {mask : Byte} (hmask : mask.getLsbD 7 = true) (c : Byte) :
    (c &&& mask).getLsbD 7 = c.getLsbD 7 := by
  rw [BitVec.getLsbD_and, hmask, Bool.and_true]

/-- A byte of a row that tests bit 7 and `op` has the row's operation, and operands of its own. -/
theorem cmd8_of_and_eq {c mask m : Byte} (hop : mask.extractLsb' 0 4 = BitVec.allOnes 4) (h7 : mask.getLsbD 7 = true)
    (hm : m.getLsbD 7 = false) (h : c &&& mask = m) : cmd8 (cmdOp m) (cmdDiff c) (cmdRm1 c) = c := by
  rw [← h, getLsbD_seven_and h7] at hm
  rw [← h, cmdOp_and hop, cmd8_fields hm]

/-- A byte of a row that tests `rm1` too (a command that uses `diff` only). -/
theorem cmd8_of_and_0xEF {c m : Byte} (h7 : m.getLsbD 7 = false) (hrm1 : cmdRm1 m = 0) (h : c &&& 0xEF#8 = m) :
    cmd8 (cmdOp m) (cmdDiff c) 0 = c := by
  rw [← h, cmdRm1_and rfl] at hrm1
  rw [← hrm1, cmd8_of_and_eq rfl rfl h7 h]

theorem eq_of_and_0xFF {c m : Byte} (h : c &&& 0xFF#8 = m) : m = c := h.symm.trans BitVec.and_allOnes

theorem exists_encode_of_and_mask {c : Byte} {i : Instr} (h : c &&& (maskMatch i).1 = (maskMatch i).2) :
    ∃ j, maskMatch j = maskMatch i ∧ j.wellFormed = true ∧ encode j = c := by
  cases i with
  | qenc => exact ⟨.qenc, rfl, rfl, eq_of_and_0xFF h⟩
  | qdec => exact ⟨.qdec, rfl, rfl, eq_of_and_0xFF h⟩
  | denc =>
    exact ⟨.denc (cmdDiff c) (cmdRm1 c + 1), rfl, wellFormed_denc_iff.mpr ⟨Nat.le_add_left _ _, cmdRm1_lt c⟩,
      cmd8_of_and_eq (mask := 0x8F#8) (m := 0x03#8) rfl rfl rfl h⟩
  | ddec => exact ⟨.ddec (cmdDiff c), rfl, rfl, cmd8_of_and_0xEF (m := 0x04#8) rfl rfl h⟩
  | comp => exact ⟨.comp (cmdDiff c), rfl, rfl, cmd8_of_and_0xEF (m := 0x05#8) rfl rfl h⟩
  | decomp => exact ⟨.decomp (cmdDiff c), rfl, rfl, cmd8_of_and_0xEF (m := 0x06#8) rfl rfl h⟩
  | ser => exact ⟨.ser, rfl, rfl, eq_of_and_0xFF h⟩
  | deser => exact ⟨.deser, rfl, rfl, eq_of_and_0xFF h⟩
  | compenv => exact ⟨.compenv (cmdDiff c), rfl, rfl, cmd8_of_and_0xEF (m := 0x09#8) rfl rfl h⟩
  | decompenv => exact ⟨.decompenv (cmdDiff c), rfl, rfl, cmd8_of_and_0xEF (m := 0x0A#8) rfl rfl h⟩

/-- Settles O2: the bytes of `legalCommands` are the rule's list, and a row's mask leaves free just its operands. -/
theorem legalCommandBytes : Obligations.LegalCommandBytes := by
  refine ⟨fun c => exists_decode_iff, fun c i => ⟨?_, fun h => ?_⟩⟩
  · rintro ⟨j, hrow, hj⟩
    obtain ⟨hwf, rfl⟩ := decode_eq_ok_iff.mp hj
    exact hrow ▸ encode_and_mask hwf
  · obtain ⟨j, hrow, hj⟩ := exists_encode_of_and_mask h
    exact ⟨j, hrow, decode_eq_ok_iff.mpr hj⟩

/-- Settles O3: the commands by `decode_encode`, each word being the one the encoder makes; the illegal words by evaluation. -/
theorem tableWordsDecode : Obligations.TableWordsDecode :=
  ⟨decode_encode (i := .qenc) rfl, decode_encode (i := .qdec) rfl, decode_encode (i := .denc true 2) rfl,
    decode_encode (i := .denc false 4) rfl, decode_encode (i := .ddec true) rfl, decode_encode (i := .comp false) rfl,
    decode_encode (i := .decomp true) rfl, decode_encode (i := .ser) rfl, decode_encode (i := .deser) rfl,
    decode_encode (i := .compenv true) rfl, decode_encode (i := .decompenv false) rfl,
    by decide, by decide, by decide, by decide, by decide⟩

end Sys2Proof
end

section
/-! The control byte (30_encoding.md R61, R62): its fields as base-4 digits, `LSF` as `MSF` with the slots reversed; what the quad
encoder declares in it (40_quad_codec.md R81, R83); and `ceil4` of a 32-bit count (R71). -/

namespace Sys2Proof.Machine

/-! ### The fields of a control byte (R62) -/

theorem field_toNat_msf (c : Byte) (i : Fin 4) : (field .msf c i).toNat = c.toNat / 4 ^ (3 - i.val) % 4 := by
  have hpos : 6 - 2 * i.val = 2 * (3 - i.val) := by omega
  simp [field, BitVec.extractLsb'_toNat, Nat.shiftRight_eq_div_pow, hpos, Nat.pow_mul]

theorem field_toNat_lsf (c : Byte) (i : Fin 4) : (field .lsf c i).toNat = c.toNat / 4 ^ i.val % 4 := by
  simp [field, BitVec.extractLsb'_toNat, Nat.shiftRight_eq_div_pow, Nat.pow_mul]

/-- `LSF` counts the slots from the other end. -/
theorem field_lsf_eq_rev (c : Byte) (i : Fin 4) : field .lsf c i = field .msf c i.rev := by
  have hpos : 6 - 2 * i.rev.val = 2 * i.val := by rw [Fin.val_rev]; omega
  simp only [field, hpos]

theorem mkctrl_lsf (b0 b1 b2 b3 : BitVec 2) : mkctrl .lsf b0 b1 b2 b3 = mkctrl .msf b3 b2 b1 b0 := rfl

theorem qlen_msf_eq_lsf (c : Byte) : qlen .msf c = qlen .lsf c := by
  have hrev : ∀ i, slotLen .lsf c i = slotLen .msf c i.rev := fun i => by simp only [slotLen, field_lsf_eq_rev]
  simp only [qlen, hrev]
  show _ = slotLen .msf c 3 + slotLen .msf c 2 + slotLen .msf c 1 + slotLen .msf c 0
  omega

theorem toNat_mkctrl_msf (b0 b1 b2 b3 : BitVec 2) :
    (mkctrl .msf b0 b1 b2 b3).toNat = 64 * b0.toNat + 16 * b1.toNat + 4 * b2.toNat + b3.toNat := by
  simp only [mkctrl, toNat_append_eq_mul_add]
  omega

theorem field_mkctrl_msf (b0 b1 b2 b3 : BitVec 2) (i : Fin 4) : field .msf (mkctrl .msf b0 b1 b2 b3) i = ![b0, b1, b2, b3] i := by
  apply BitVec.eq_of_toNat_eq
  rw [field_toNat_msf, toNat_mkctrl_msf]
  fin_cases i <;> simp <;> omega

theorem field_mkctrl (o : CtrlOrder) (b0 b1 b2 b3 : BitVec 2) (i : Fin 4) :
    field o (mkctrl o b0 b1 b2 b3) i = ![b0, b1, b2, b3] i := by
  cases o with
  | msf => exact field_mkctrl_msf b0 b1 b2 b3 i
  | lsf =>
    rw [field_lsf_eq_rev, mkctrl_lsf, field_mkctrl_msf]
    fin_cases i <;> rfl

theorem mkctrl_field (o : CtrlOrder) (c : Byte) : mkctrl o (field o c 0) (field o c 1) (field o c 2) (field o c 3) = c := by
  have hmsf : mkctrl .msf (field .msf c 0) (field .msf c 1) (field .msf c 2) (field .msf c 3) = c := by
    apply BitVec.eq_of_toNat_eq
    rw [toNat_mkctrl_msf, field_toNat_msf, field_toNat_msf, field_toNat_msf, field_toNat_msf]
    show 64 * (c.toNat / 4 ^ 3 % 4) + 16 * (c.toNat / 4 ^ 2 % 4) + 4 * (c.toNat / 4 ^ 1 % 4) + c.toNat / 4 ^ 0 % 4 = c.toNat
    omega
  cases o with
  | msf => exact hmsf
  | lsf => rwa [mkctrl_lsf, field_lsf_eq_rev, field_lsf_eq_rev, field_lsf_eq_rev, field_lsf_eq_rev]

/-- Settles O4: the fields both ways by `field_mkctrl` and `mkctrl_field`, their places by their numbers. -/
theorem controlByteFields : Obligations.ControlByteFields :=
  ⟨fun o b0 b1 b2 b3 => ⟨field_mkctrl o b0 b1 b2 b3 0, field_mkctrl o b0 b1 b2 b3 1, field_mkctrl o b0 b1 b2 b3 2,
      field_mkctrl o b0 b1 b2 b3 3⟩,
    mkctrl_field, fun c i => ⟨field_toNat_msf c i, field_toNat_lsf c i⟩,
    fun o c => ⟨fun _ => rfl, rfl, qlen_bounds o c⟩, qlen_msf_eq_lsf⟩

/-! ### `ceil4` of a count (R71) -/

theorem ceil4_word (n : Word) :
    ceil4 n.toNat = (n.extractLsb' 2 30).toNat + (if n.extractLsb' 0 2 = 0#2 then 0 else 1) := by
  have hlow : n.extractLsb' 0 2 = 0#2 ↔ n.toNat % 4 = 0 := by
    simp [← BitVec.toNat_inj]
  have hhigh : (n.extractLsb' 2 30).toNat = n.toNat / 4 := by
    rw [BitVec.extractLsb'_toNat, Nat.shiftRight_eq_div_pow]
    omega
  simp only [ceil4, hlow, hhigh]

/-- Settles O5: the formula by `ceil4_word`, the bound because `ceil4` is monotone. -/
theorem ceilFourOfACount : Obligations.CeilFourOfACount :=
  ⟨fun n => ⟨ceil4_word n, (ceil4_mono n.isLt.le).trans (by decide)⟩, by decide⟩

/-! ### The control byte of the quad encoder (R81, R83) -/

theorem slotLen_quadEncode (o : CtrlOrder) (v : Quad) (i : Fin 4) : slotLen o (quadEncode o v).2 i = klen (v.slot i) := by
  have hslot : slotLen o (quadEncode o v).2 i = (lenCode (klen (v.slot i))).toNat + 1 := by
    rw [slotLen, quadEncode, field_mkctrl]
    fin_cases i <;> rfl
  rw [hslot, lenCode_toNat_succ _ (klen_pos _) (klen_le_four _)]

theorem length_quadEncode (o : CtrlOrder) (v : Quad) :
    (quadEncode o v).1.length = qlen o (quadEncode o v).2 := by
  simp only [qlen, slotLen_quadEncode, Quad.slot]
  simp only [quadEncode, List.length_append, leBytes_length]

/-- Settles O9: the byte counts by `slotLen_quadEncode`, whose sum is the length; the data are made without the order. -/
theorem quadEncodingIsMinimal : Obligations.QuadEncodingIsMinimal := by
  intro o v
  obtain ⟨hmin, hmax⟩ := quadEncode_length_bounds o v
  exact ⟨slotLen_quadEncode o v, length_quadEncode o v, hmin, hmax, fun _ => rfl⟩

end Sys2Proof.Machine
end

section
/-! The quad decoder on enough bytes (40_quad_codec.md R84, R85, R87), and the commands `QENC` and `QDEC` where they succeed
(R82, R86, R13). -/

namespace Sys2Proof.Machine

/-! ### One value of a payload -/

theorem valueAt_toNat (s : List Byte) (p : Nat) {k : Nat} (hk : k ≤ 4) : (valueAt s p k).toNat = leValue ((s.drop p).take k) :=
  leWord_toNat _ ((List.length_take_le k _).trans hk)

theorem valueAt_append {s : List Byte} {p k : Nat} (t : List Byte) (h : p + k ≤ s.length) : valueAt (s ++ t) p k = valueAt s p k := by
  have hk : k ≤ (s.drop p).length := by rw [List.length_drop]; omega
  rw [valueAt, List.drop_append_of_le_length (by omega), List.take_append_of_le_length hk, valueAt]

/-- The minimal bytes of a value, read back from where they were put. -/
theorem valueAt_leBytes {s : List Byte} {p : Nat} {v : Word} (pre post : List Byte) (hs : s = pre ++ leBytes v (klen v) ++ post)
    (hp : p = pre.length) : valueAt s p (klen v) = v := by
  have hend : p + klen v ≤ (pre ++ leBytes v (klen v)).length := by rw [List.length_append, leBytes_length, hp]
  rw [hs, valueAt_append post hend, hp, valueAt, List.drop_left, List.take_of_length_le (leBytes_length v _).le,
    leWord_leBytes (klen_le_four v) (toNat_lt_pow_klen v)]

/-! ### The quad decoder on enough bytes -/

theorem quadDecode_of_le {o : CtrlOrder} {s : List Byte} {c : Byte} (h : qlen o c ≤ s.length) :
    quadDecode o s c = some (⟨valueAt s 0 (slotLen o c 0), valueAt s (slotLen o c 0) (slotLen o c 1),
      valueAt s (slotLen o c 0 + slotLen o c 1) (slotLen o c 2),
      valueAt s (slotLen o c 0 + slotLen o c 1 + slotLen o c 2) (slotLen o c 3)⟩, qlen o c) :=
  if_neg (Nat.not_lt.mpr h)

theorem quadDecode_append {o : CtrlOrder} {s : List Byte} {c : Byte} (t : List Byte) (h : qlen o c ≤ s.length) :
    quadDecode o (s ++ t) c = quadDecode o s c := by
  rw [quadDecode_of_le h, quadDecode_of_le (h.trans (by simp))]
  unfold qlen at h
  rw [valueAt_append t (by omega), valueAt_append t (by omega), valueAt_append t (by omega), valueAt_append t (by omega)]

theorem quadDecode_take {o : CtrlOrder} {s : List Byte} {c : Byte} (h : qlen o c ≤ s.length) :
    quadDecode o (s.take (qlen o c)) c = quadDecode o s c := by
  have hlen : qlen o c ≤ (s.take (qlen o c)).length := by rw [List.length_take_of_le h]
  rw [← quadDecode_append (s.drop (qlen o c)) hlen, List.take_append_drop]

/-- Settles O10: bytes appended change nothing, and cutting the later bytes off undoes such an appending. -/
theorem quadDecodeReadsOnlyItsBytes : Obligations.QuadDecodeReadsOnlyItsBytes :=
  fun o c s t => ⟨quadDecode_none_iff o s c, fun h => ⟨quadDecode_append t h, quadDecode_take h⟩⟩

/-- Slot by slot, the decoder finds the bytes of a value after those of the slots before it. -/
theorem quadDecode_quadEncode (o : CtrlOrder) (v : Quad) :
    quadDecode o (quadEncode o v).1 (quadEncode o v).2 = some (v, (quadEncode o v).1.length) := by
  obtain ⟨v0, v1, v2, v3⟩ := v
  rw [quadDecode_of_le (length_quadEncode o _).ge, ← length_quadEncode]
  simp only [slotLen_quadEncode, Quad.slot]
  have h0 : valueAt (quadEncode o ⟨v0, v1, v2, v3⟩).1 0 (klen v0) = v0 :=
    valueAt_leBytes [] (leBytes v1 (klen v1) ++ leBytes v2 (klen v2) ++ leBytes v3 (klen v3)) (by simp [quadEncode]) rfl
  have h1 : valueAt (quadEncode o ⟨v0, v1, v2, v3⟩).1 (klen v0) (klen v1) = v1 :=
    valueAt_leBytes (leBytes v0 (klen v0)) (leBytes v2 (klen v2) ++ leBytes v3 (klen v3)) (by simp [quadEncode])
      (by simp [leBytes_length])
  have h2 : valueAt (quadEncode o ⟨v0, v1, v2, v3⟩).1 (klen v0 + klen v1) (klen v2) = v2 :=
    valueAt_leBytes (leBytes v0 (klen v0) ++ leBytes v1 (klen v1)) (leBytes v3 (klen v3)) rfl (by simp [leBytes_length])
  have h3 : valueAt (quadEncode o ⟨v0, v1, v2, v3⟩).1 (klen v0 + klen v1 + klen v2) (klen v3) = v3 :=
    valueAt_leBytes (leBytes v0 (klen v0) ++ leBytes v1 (klen v1) ++ leBytes v2 (klen v2)) [] (by simp [quadEncode])
      (by simp [leBytes_length, Nat.add_assoc])
  rw [h0, h1, h2, h3]

/-- Settles O8: the encoder's own bytes give the quad back, and the bytes after them are not read. -/
theorem quadRoundTrip : Obligations.QuadRoundTrip := by
  intro o v t
  rw [quadDecode_append t (length_quadEncode o v).ge, quadDecode_quadEncode]

/-! ### The commands -/

theorem quadEncode_data_eq_flatMap (o : CtrlOrder) (v : Quad) : (quadEncode o v).1 = v.toList.flatMap (fun w => leBytes w (klen w)) := by
  simp [quadEncode, Quad.toList]

theorem quadEncode_data_length (o : CtrlOrder) (v : Quad) :
    (quadEncode o v).1.length = klen v.v0 + klen v.v1 + klen v.v2 + klen v.v3 := by
  simp only [quadEncode, List.length_append, leBytes_length]

/-- `NBYTES` holds the byte count of every quad (R13). -/
theorem nbytes_toNat {n : Nat} (h : n ≤ 16) : (BitVec.ofNat 5 n).toNat = n := Nat.mod_eq_of_lt (by omega)

/-- Settles O11: `execQenc_fits` gives the next state, and the encoder's data and control byte are as R81 says. -/
theorem qencResult : Obligations.QencResult := by
  intro s hfit
  rw [← quadEncode_data_length s.cfg.ctrlOrder s.q] at hfit ⊢
  refine ⟨_, execQenc_fits s hfit, ?_, slotLen_quadEncode _ s.q, nbytes_toNat (quadEncode_length_bounds _ _).2, complete_noError_eq _⟩
  rw [complete_payVal, State.payVal, values_store, quadEncode_data_eq_flatMap]

/-- Settles O12: with `qlen` bytes the decoder succeeds, and each slot is a value of at most four bytes. -/
theorem qdecResult : Obligations.QdecResult := by
  intro s k hk hlen
  obtain rfl : k = slotLen s.cfg.ctrlOrder s.ctrlb := funext hk
  have hbytes : qlen s.cfg.ctrlOrder s.ctrlb ≤ s.payVal.length := by rwa [length_payVal]
  have hvalue (p : Nat) (i : Fin 4) := valueAt_toNat s.payVal p (slotLen_bounds s.cfg.ctrlOrder s.ctrlb i).2
  exact ⟨_, execQdec_ok s _ _ (quadDecode_of_le hbytes), hvalue 0 0, hvalue _ 1, hvalue _ 2, hvalue _ 3,
    nbytes_toNat (qlen_bounds _ _).2, complete_noError_eq _⟩

end Sys2Proof.Machine
end

section
/-! The delta transform (41_delta.md): the padding rule slot by slot (R100, R102), the inverse of the forward transform (R105), and
the commands `DENC` and `DDEC` (R101, R104). -/

namespace Sys2Proof.Machine

/-! ### Quads by slots -/

theorem quad_eq_of_slots {v w : Quad} (h : ∀ i, v.slot i = w.slot i) : v = w := by
  obtain ⟨v0, v1, v2, v3⟩ := v
  obtain ⟨w0, w1, w2, w3⟩ := w
  obtain ⟨rfl, rfl, rfl, rfl⟩ : v0 = w0 ∧ v1 = w1 ∧ v2 = w2 ∧ v3 = w3 := ⟨h 0, h 1, h 2, h 3⟩
  rfl

/-- The slot whose value slot `i` takes when `r` values are real (R100). -/
def padSource (r : Nat) (i : Fin 4) : Fin 4 := ⟨min i.val (r - 1), (Nat.min_le_left _ _).trans_lt i.isLt⟩

theorem padSource_of_lt {r : Nat} {i : Fin 4} (h : i.val < r) : padSource r i = i :=
  Fin.ext (Nat.min_eq_left (Nat.le_sub_one_of_lt h))

theorem padSource_of_le {r : Nat} {i k : Fin 4} (h : r ≤ i.val) (hk : k.val = r - 1) : padSource r i = k :=
  Fin.ext ((Nat.min_eq_right ((Nat.sub_le r 1).trans h)).trans hk.symm)

theorem padSource_padSource (r : Nat) (i : Fin 4) : padSource r (padSource r i) = padSource r i :=
  Fin.ext (Nat.min_eq_left (Nat.min_le_right _ _))

/-- The padding rule as one equation, for every count but 0, which no command gives. -/
theorem padQuad_slot (v : Quad) {r : Nat} (hr : 1 ≤ r) (i : Fin 4) : (padQuad v r).slot i = v.slot (padSource r i) := by
  match r with
  | 1 | 2 | 3 => fin_cases i <;> rfl
  | r + 4 => rw [padSource_of_lt (by omega), padQuad] <;> omega

theorem padQuad_slot_of_lt (v : Quad) {r : Nat} {i : Fin 4} (h : i.val < r) : (padQuad v r).slot i = v.slot i := by
  rw [padQuad_slot v (by omega), padSource_of_lt h]

theorem padQuad_slot_of_le (v : Quad) {r : Nat} {i k : Fin 4} (hr : 1 ≤ r) (h : r ≤ i.val) (hk : k.val = r - 1) :
    (padQuad v r).slot i = v.slot k := by
  rw [padQuad_slot v hr, padSource_of_le h hk]

theorem padQuad_padQuad (v : Quad) {r : Nat} (hr : 1 ≤ r) : padQuad (padQuad v r) r = padQuad v r :=
  quad_eq_of_slots fun i => by rw [padQuad_slot _ hr, padQuad_slot v hr, padSource_padSource, ← padQuad_slot v hr]

/-! ### The transform -/

/-- A later slot holds the difference of its padded value from the one before it. -/
theorem deltaFwd_slot_succ (v : Quad) (r : Nat) {i j : Fin 4} (h : j.val = i.val + 1) :
    (deltaFwd v r).slot j = (padQuad v r).slot j - (padQuad v r).slot i := by
  match i, j with
  | 0, 1 | 1, 2 | 2, 3 => rfl

theorem deltaInv_deltaFwd (v : Quad) (r : Nat) : deltaInv (deltaFwd v r) = padQuad v r := by
  simp only [deltaInv, deltaFwd, BitVec.sub_add_cancel]

/-- Settles O15: `(a - b) + b = a` at each slot, and with `r = 4` the padded quad is the quad. -/
theorem deltaInverseUndoesForward : Obligations.DeltaInverseUndoesForward :=
  ⟨fun v => deltaInv_deltaFwd v 4, deltaInv_deltaFwd, fun v _ _ => padQuad_slot_of_lt v⟩

/-- A padding slot and the slot before it both hold the last real value. -/
theorem deltaFwd_slot_of_le (v : Quad) {r : Nat} {i : Fin 4} (hr : 1 ≤ r) (h : r ≤ i.val) : (deltaFwd v r).slot i = 0#32 := by
  obtain ⟨j, hj⟩ : ∃ j : Fin 4, i.val = j.val + 1 := ⟨⟨i.val - 1, by omega⟩, (Nat.sub_add_cancel (hr.trans h)).symm⟩
  have hsource : padSource r i = padSource r j := Fin.ext (by simp only [padSource]; omega)
  rw [deltaFwd_slot_succ v r hj, padQuad_slot v hr, padQuad_slot v hr, hsource, BitVec.sub_self]

/-- Settles O16: each part is a reading of `padQuad_slot`, by which slot `i` holds the value of slot `min i (r - 1)`. -/
theorem paddingRepeatsTheLastValue : Obligations.PaddingRepeatsTheLastValue :=
  fun v _ hr _ => ⟨fun _ _ => padQuad_slot_of_le v hr, padQuad_padQuad v hr, fun _ => deltaFwd_slot_of_le v hr⟩

/-! ### The commands -/

/-- Settles O13: the slots `p` are those of the padded quad, and `DENC` ends with its deltas. -/
theorem dencResult : Obligations.DencResult := by
  intro s r p hr hr4 hreal hpad
  have hp (i : Fin 4) : p i = (padQuad s.q r).slot i := by
    rcases Nat.lt_or_ge i.val r with hi | hi
    · rw [hreal i hi, padQuad_slot_of_lt s.q hi]
    · obtain ⟨k, hk⟩ : ∃ k : Fin 4, k.val = r - 1 := ⟨⟨r - 1, by omega⟩, rfl⟩
      rw [hpad i k hi hk, padQuad_slot_of_le s.q hr hi hk]
  rw [exec_denc, exec_denc, complete_noError_eq, complete_noError_eq, hp, hp, hp, hp]
  exact ⟨rfl, rfl⟩

/-- The running sums of R103, written from the first slot on. -/
theorem deltaInv_eq (d : Quad) :
    deltaInv d = ⟨d.v0, d.v0 + d.v1, d.v0 + d.v1 + d.v2, d.v0 + d.v1 + d.v2 + d.v3⟩ := by
  simp only [deltaInv, BitVec.add_comm d.v1, BitVec.add_comm d.v2, BitVec.add_comm d.v3]

/-- Settles O14: `DDEC` ends with the running sums of `deltaInv_eq`, or with the quad as it was. -/
theorem ddecResult : Obligations.DdecResult := by
  intro s
  rw [exec_ddec, exec_ddec, complete_noError_eq, complete_noError_eq, ← deltaInv_eq]
  exact ⟨rfl, rfl⟩

end Sys2Proof.Machine
end

section
/-! The splitter (42_stream.md R110): the sequence is cut into quads four elements at a time, each quad padded. -/

namespace Sys2Proof.Machine

theorem lt_ceil4_iff {j n : Nat} : j < ceil4 n ↔ 4 * j < n := by
  simp only [ceil4]
  split <;> omega

@[simp] theorem length_splitQuads (s : List Word) : (splitQuads s).length = ceil4 s.length := by
  induction s using splitQuads.induct with
  | case1 => rfl
  | case2 | case3 | case4 => simp [splitQuads, ceil4]
  | case5 a b c d rest ih => simp only [splitQuads, List.length_cons, ceil4_add_four, ih]

/-- One cut of the splitter: a padded quad of the first elements, at most four, and the quads of the rest. -/
theorem splitQuads_eq_cons {s : List Word} (hs : s ≠ []) :
    ∃ q, splitQuads s = (q, min 4 s.length) :: splitQuads (s.drop 4) ∧
      ∀ i : Fin 4, s[min i.val (min 4 s.length - 1)]? = some (q.slot i) := by
  match s with
  | [_] | [_, _] | [_, _, _] => exact ⟨_, rfl, fun i => by fin_cases i <;> rfl⟩
  | a :: b :: c :: d :: rest =>
    have hr : min 4 (a :: b :: c :: d :: rest).length = 4 := Nat.min_eq_left (by simp)
    rw [hr]
    exact ⟨_, rfl, fun i => by fin_cases i <;> rfl⟩

/-- Settles O18: quad 0 is what the first cut gives, and quad `j + 1` is quad `j` of the rest. -/
theorem splitIntoPaddedQuads : Obligations.SplitIntoPaddedQuads := by
  refine fun s => ⟨length_splitQuads s, fun j hj => ?_⟩
  rw [lt_ceil4_iff] at hj
  induction j generalizing s with
  | zero =>
    obtain ⟨q, hq, hslot⟩ := splitQuads_eq_cons (List.ne_nil_of_length_pos hj)
    exact ⟨q, by simp [hq], by simpa using hslot⟩
  | succ j ih =>
    obtain ⟨q, hq, hslot⟩ := ih (s.drop 4) (by rw [List.length_drop]; omega)
    obtain ⟨_, hcons, -⟩ := splitQuads_eq_cons (List.ne_nil_of_length_pos (Nat.zero_lt_of_lt hj))
    have hcount : (s.drop 4).length - 4 * j = s.length - 4 * (j + 1) := by rw [List.length_drop]; omega
    rw [hcount] at hq hslot
    refine ⟨q, by rw [hcons, List.getElem?_cons_succ, hq], fun i => ?_⟩
    rw [← hslot i, List.getElem?_drop]
    congr 1
    omega

/-- At a boundary of whole quads the splitter starts anew. -/
theorem splitQuads_append {a : List Word} (b : List Word) (h : a.length % 4 = 0) :
    splitQuads (a ++ b) = splitQuads a ++ splitQuads b := by
  induction a using splitQuads.induct with
  | case1 => rfl
  | case2 | case3 | case4 => simp at h
  | case5 w x y z rest ih =>
    have hrest : rest.length % 4 = 0 := by
      simp only [List.length_cons] at h
      omega
    simp only [List.cons_append, splitQuads, ih hrest]

/-- The quads are padded already: padding them again, as the forward transform does, changes nothing (R102). -/
theorem padQuad_of_mem_splitQuads {s : List Word} {tr : Quad × Nat} (h : tr ∈ splitQuads s) : padQuad tr.1 tr.2 = tr.1 := by
  induction s using splitQuads.induct with
  | case1 => cases h
  | case2 | case3 | case4 =>
    obtain rfl := List.mem_singleton.mp h
    rfl
  | case5 a b c d rest ih =>
    rcases List.mem_cons.mp h with rfl | h
    · rfl
    · exact ih h

/-- The quads hold the sequence, followed by the padding of the last one. -/
theorem prefix_flatMap_splitQuads (s : List Word) : s <+: (splitQuads s).flatMap (fun tr => tr.1.toList) := by
  induction s using splitQuads.induct with
  | case1 => exact List.nil_prefix
  | case2 a => exact ⟨[a, a, a], rfl⟩
  | case3 a b => exact ⟨[b, b], rfl⟩
  | case4 a b c => exact ⟨[c], rfl⟩
  | case5 a b c d rest ih => exact (List.prefix_append_right_inj [a, b, c, d]).mpr ih

end Sys2Proof.Machine
end

section
/-! The compressor (42_stream.md R112, R113): the quads of the splitter, each encoded for itself. -/

namespace Sys2Proof.Machine

theorem compress_fst (o : CtrlOrder) (diff : Bool) (s : List Word) :
    (compress o diff s).1 = (splitQuads s).flatMap (fun tr => (compressQuad o diff tr).1) := by
  simp only [compress, List.map_map, ← List.flatMap_def, Function.comp_def]

theorem compress_snd (o : CtrlOrder) (diff : Bool) (s : List Word) :
    (compress o diff s).2 = (splitQuads s).map (fun tr => (compressQuad o diff tr).2) := by
  simp only [compress, List.map_map, Function.comp_def]

theorem length_compress_snd (o : CtrlOrder) (diff : Bool) (s : List Word) : (compress o diff s).2.length = ceil4 s.length := by
  rw [compress_snd, List.length_map, length_splitQuads]

/-- Each control byte declares the length of its quad's data (R83). -/
theorem length_compress_fst (o : CtrlOrder) (diff : Bool) (s : List Word) :
    (compress o diff s).1.length = ((compress o diff s).2.map (qlen o)).sum := by
  simp only [compress_fst, compress_snd, List.length_flatMap, List.map_map, Function.comp_def, compressQuad, length_quadEncode]

/-- Settles O19: a quad's control byte declares its 4 to 16 bytes, and `quadEncode` makes the data without the order. -/
theorem compressedLengths : Obligations.CompressedLengths := by
  intro o diff s
  have hlow := List.card_nsmul_le_sum ((compress o diff s).2.map (qlen o)) 4
    (List.forall_mem_map.mpr fun c _ => (qlen_bounds o c).1)
  have hhigh := List.sum_le_card_nsmul ((compress o diff s).2.map (qlen o)) 16
    (List.forall_mem_map.mpr fun c _ => (qlen_bounds o c).2)
  rw [← length_compress_fst, List.length_map, length_compress_snd, smul_eq_mul, Nat.mul_comm] at hlow hhigh
  exact ⟨length_compress_snd o diff s, length_compress_fst o diff s, hlow, hhigh,
    fun o' => by rw [compress_fst, compress_fst]; rfl⟩

/-- Settles O20: the quads of the two parts one after the other, by `splitQuads_append`. -/
theorem quadsCompressIndependently : Obligations.QuadsCompressIndependently := by
  intro o diff a b h
  apply Prod.ext
  · simp only [compress_fst, splitQuads_append b h, List.flatMap_append]
  · simp only [compress_snd, splitQuads_append b h, List.map_append]

end Sys2Proof.Machine
end

section
/-! The joiner (42_stream.md R114 to R119): its loop quad by quad and element by element, and what it makes of the compressor's
output. -/

namespace Sys2Proof.Machine

/-- The values of a quad as the joiner delivers them (R116). -/
def restoreQuad (diff : Bool) (v : Quad) : Quad := if diff then deltaInv v else v

theorem decodeQuads_cons_of_some {o : CtrlOrder} {pay : List Byte} {c : Byte} {v : Quad} {n : Nat}
    (h : quadDecode o pay c = some (v, n)) (diff : Bool) (ctl : List Byte) :
    decodeQuads o diff (c :: ctl) pay =
      (decodeQuads o diff ctl (pay.drop n)).map ((restoreQuad diff v).toList ++ ·) := by
  simp only [decodeQuads, h]
  cases decodeQuads o diff ctl (pay.drop n) <;> rfl

/-- A loop that succeeds on a first control byte has decoded its quad, and succeeded on the others with the rest of the payload. -/
theorem decodeQuads_cons_eq_some {o : CtrlOrder} {diff : Bool} {c : Byte} {ctl pay : List Byte} {acc : List Word}
    (h : decodeQuads o diff (c :: ctl) pay = some acc) :
    ∃ v rest, quadDecode o pay c = some (v, qlen o c) ∧ decodeQuads o diff ctl (pay.drop (qlen o c)) = some rest ∧
      acc = (restoreQuad diff v).toList ++ rest := by
  cases hd : quadDecode o pay c with
  | none => simp [decodeQuads, hd] at h
  | some r =>
    obtain ⟨v, n⟩ := r
    obtain rfl := quadDecode_consumes hd
    rw [decodeQuads_cons_of_some hd, Option.map_eq_some_iff] at h
    obtain ⟨rest, hrest, rfl⟩ := h
    exact ⟨v, rest, rfl, hrest, rfl⟩

theorem getElem?_toList_append (q : Quad) (l : List Word) (i : Fin 4) : (q.toList ++ l)[i.val]? = some (q.slot i) := by
  fin_cases i <;> rfl

/-- Value `4j + i` of a loop that succeeds is slot `i` of quad `j`, decoded at the payload cursor (R51). -/
theorem getElem?_decodeQuads {o : CtrlOrder} {diff : Bool} {ctl pay : List Byte} {acc : List Word}
    (h : decodeQuads o diff ctl pay = some acc) {j : Nat} (hj : j < ctl.length) :
    ∃ v n, quadDecode o (pay.drop (payCursor o ctl j)) (ctl.getD j 0#8) = some (v, n) ∧
      ∀ i : Fin 4, acc[4 * j + i.val]? = some ((restoreQuad diff v).slot i) := by
  induction ctl generalizing pay acc j with
  | nil => exact absurd hj (Nat.not_lt_zero j)
  | cons c ctl ih =>
    obtain ⟨v, rest, hv, hrest, rfl⟩ := decodeQuads_cons_eq_some h
    cases j with
    | zero => exact ⟨v, qlen o c, hv, fun i => by simpa using getElem?_toList_append (restoreQuad diff v) rest i⟩
    | succ j =>
      obtain ⟨w, n, hw, hslot⟩ := ih hrest (Nat.lt_of_succ_lt_succ hj)
      refine ⟨w, n, by rwa [payCursor_cons, ← List.drop_drop, List.getD_cons_succ], fun i => ?_⟩
      have hpos : 4 * (j + 1) + i.val - (restoreQuad diff v).toList.length = 4 * j + i.val := by
        simp only [Quad.toList, List.length_cons, List.length_nil]
        omega
      rw [List.getElem?_append_right (by simp [Quad.toList]; omega), hpos, hslot]

theorem decompress_ok_iff {o : CtrlOrder} {diff : Bool} {pay ctl : List Byte} {n : Nat} {out : List Word} :
    decompress o diff pay ctl n = .ok out ↔
      ctl.length = ceil4 n ∧ ∃ acc, decodeQuads o diff ctl pay = some acc ∧ acc.take n = out := by
  unfold decompress
  by_cases hc : ctl.length = ceil4 n
  · cases decodeQuads o diff ctl pay <;> simp [hc]
  · simp [hc]

/-! ### The way back (R119) -/

theorem quadDecode_compressQuad (o : CtrlOrder) (diff : Bool) (tr : Quad × Nat) (t : List Byte) :
    quadDecode o ((compressQuad o diff tr).1 ++ t) (compressQuad o diff tr).2 =
      some (if diff then deltaFwd tr.1 tr.2 else tr.1, (compressQuad o diff tr).1.length) :=
  quadRoundTrip o _ t

/-- The joiner's transform undoes the compressor's on a padded quad (R105). -/
theorem restoreQuad_of_padded {tr : Quad × Nat} (h : padQuad tr.1 tr.2 = tr.1) (diff : Bool) :
    restoreQuad diff (if diff then deltaFwd tr.1 tr.2 else tr.1) = tr.1 := by
  cases diff
  · rfl
  · exact (deltaInv_deltaFwd tr.1 tr.2).trans h

/-- The loop gives back padded quads compressed one by one, and does not read past their bytes (R115). -/
theorem decodeQuads_compressQuad (o : CtrlOrder) (diff : Bool) {quads : List (Quad × Nat)}
    (h : ∀ tr ∈ quads, padQuad tr.1 tr.2 = tr.1) (extra : List Byte) :
    decodeQuads o diff (quads.map fun tr => (compressQuad o diff tr).2)
      (quads.flatMap (fun tr => (compressQuad o diff tr).1) ++ extra) = some (quads.flatMap fun tr => tr.1.toList) := by
  induction quads with
  | nil => rfl
  | cons tr quads ih =>
    obtain ⟨hpad, htail⟩ := List.forall_mem_cons.mp h
    rw [List.flatMap_cons, List.append_assoc, List.map_cons,
      decodeQuads_cons_of_some (quadDecode_compressQuad o diff tr _), List.drop_left, ih htail, restoreQuad_of_padded hpad]
    rfl

/-- Settles O21: the loop gives back the quads, of which the sequence is the first part. -/
theorem streamRoundTrip : Obligations.StreamRoundTrip := by
  intro o diff s extra
  have hloop := decodeQuads_compressQuad o diff (fun _ => padQuad_of_mem_splitQuads (s := s)) extra
  rw [← compress_fst, ← compress_snd] at hloop
  exact decompress_ok_iff.mpr ⟨length_compress_snd o diff s, _, hloop,
    (List.prefix_iff_eq_take.mp (prefix_flatMap_splitQuads s)).symm⟩

end Sys2Proof.Machine
end

section
/-! The commands `COMP` and `DECOMP` where they end without error (42_stream.md R112, R116, R117, R119). -/

namespace Sys2Proof.Machine

/-! ### Success (60_exceptions.md R154) -/

/-- The three parts of the compressed sequence as `COMP` leaves them. -/
def State.compressed (s : State) (diff : Bool) : State :=
  { s with
    pay := s.pay.store (compress s.cfg.ctrlOrder diff s.seqVal).1
    ctl := s.ctl.store (compress s.cfg.ctrlOrder diff s.seqVal).2
    ecount := BitVec.ofNat 32 s.seq.len }

@[simp] theorem payVal_compressed (s : State) (diff : Bool) :
    (s.compressed diff).payVal = (compress s.cfg.ctrlOrder diff s.seqVal).1 :=
  values_store (freeByte .pay) s.pay _

@[simp] theorem ctlVal_compressed (s : State) (diff : Bool) :
    (s.compressed diff).ctlVal = (compress s.cfg.ctrlOrder diff s.seqVal).2 :=
  values_store (freeByte .ctl) s.ctl _

theorem toNat_ecount_compressed {s : State} (h : s.seq.len < 2 ^ 32) (diff : Bool) :
    (s.compressed diff).ecount.toNat = s.seq.len :=
  Nat.mod_eq_of_lt h

theorem execComp_fits {s : State} {diff : Bool}
    (hp : fits (s.cfg.cap .pay) (compress s.cfg.ctrlOrder diff s.seqVal).1.length = true)
    (hc : fits (s.cfg.cap .ctl) (compress s.cfg.ctrlOrder diff s.seqVal).2.length = true) :
    exec (.comp diff) s = .next (complete .noError (s.compressed diff)) := by
  rw [exec_comp, compStage, hp, hc]
  rfl

theorem execComp_noError {s t : State} {diff : Bool} (h : exec (.comp diff) s = .next t) (ht : t.errPin = 0#3) :
    t = complete .noError (s.compressed diff) := by
  rcases compStage_cases diff s with ⟨hp, hc, -⟩ | ⟨-, hs⟩
  · rw [execComp_fits hp hc] at h
    cases h
    rfl
  · rw [exec_comp, hs] at h
    cases h
    rw [complete_errPin] at ht
    cases ht

theorem execDecomp_ok {s : State} {diff : Bool} {out : List Word}
    (hd : decompress s.cfg.ctrlOrder diff s.payVal s.ctlVal s.ecount.toNat = .ok out)
    (hf : fits (s.cfg.cap .seq) s.ecount.toNat = true) :
    exec (.decomp diff) s = .next (complete .noError { s with seq := s.seq.store out }) := by
  simp only [exec_decomp, decompStage, hd, hf, if_true]

theorem execDecomp_noError {s t : State} {diff : Bool} (h : exec (.decomp diff) s = .next t) (ht : t.errPin = 0#3) :
    decompress s.cfg.ctrlOrder diff s.payVal s.ctlVal s.ecount.toNat = .ok t.seqVal := by
  rw [exec_decomp] at h
  rcases decompStage_cases diff s with ⟨out, hd, -, hs⟩ | ⟨_, -, -, hs⟩ | ⟨e, he, hs⟩ <;> rw [hs] at h <;> cases h
  · rw [hd, complete_seqVal, State.seqVal, values_store]
  · rw [complete_errPin] at ht
    cases ht
  · rw [complete_errPin] at ht
    rcases decompress_error he with rfl | rfl <;> cases ht

/-! ### Results -/

/-- Settles O22: `compress` is the encoding of the quads, and the count is below `2^32`. -/
theorem compResult : Obligations.CompResult := by
  intro s diff hlen hp hc
  rw [← length_seqVal, ← length_compress_snd s.cfg.ctrlOrder diff] at hc
  exact ⟨_, execComp_fits hp hc, (payVal_compressed s diff).trans (compress_fst ..),
    (ctlVal_compressed s diff).trans (compress_snd ..), toNat_ecount_compressed hlen diff, complete_noError_eq _⟩

/-- Settles O23: the loop succeeds where no quad starves, and the count cuts its values off behind the index asked for. -/
theorem decompResult : Obligations.DecompResult := by
  intro s diff hcount hstarve hf
  have hctl : s.ctlVal.length = ceil4 s.ecount.toNat := by rwa [length_ctlVal]
  have hloop := mt (decodeQuads_length s.cfg.ctrlOrder diff s.ctlVal s.payVal).1.mp hstarve
  obtain ⟨acc, hacc⟩ := Option.ne_none_iff_exists'.mp hloop
  have hd := decompress_ok_iff.mpr ⟨hctl, acc, hacc, rfl⟩
  refine ⟨_, execDecomp_ok hd hf, decompress_length hd, fun j i hji => ?_, complete_noError_eq _⟩
  obtain ⟨v, n, hv, hslot⟩ := getElem?_decodeQuads hacc (j := j) (by rw [hctl, lt_ceil4_iff]; omega)
  refine ⟨v, n, hv, ?_⟩
  rw [complete_seqVal, State.seqVal, values_store, List.getElem?_take_of_lt hji]
  exact hslot i

/-- Settles O24: the parts `COMP` left are those of `streamRoundTrip`, with the count it wrote. -/
theorem decompRestoresWhatCompRead : Obligations.DecompRestoresWhatCompRead := by
  intro s t u diff hlen h ht hcfg hpay hctl hec
  obtain rfl := execComp_noError h ht
  have hn : u.ecount.toNat = s.seqVal.length := by
    rw [hec, complete_ecount, toNat_ecount_compressed (hlen.trans_lt s.cfg.seqCap.isLt), length_seqVal]
  have hd : decompress u.cfg.ctrlOrder diff u.payVal u.ctlVal u.ecount.toNat = .ok s.seqVal := by
    rw [hcfg, hn, hpay, hctl, complete_payVal, complete_ctlVal, payVal_compressed, ctlVal_compressed]
    simpa using streamRoundTrip s.cfg.ctrlOrder diff s.seqVal []
  have hf : fits (u.cfg.cap .seq) u.ecount.toNat = true := by
    rw [hcfg, hn, length_seqVal]
    exact decide_eq_true hlen
  exact ⟨_, execDecomp_ok hd hf, complete_errPin _ _, values_store _ _ _⟩

/-- Settles O25: the loop does not see the count, which only cuts its values off. -/
theorem countTrustedWithinItsQuad : Obligations.CountTrustedWithinItsQuad := by
  intro s t diff n h ht hceil hf
  obtain ⟨hctl, acc, hacc, hseq⟩ := decompress_ok_iff.mp (execDecomp_noError h ht)
  have hd' : decompress s.cfg.ctrlOrder diff s.payVal s.ctlVal n.toNat = .ok (acc.take n.toNat) :=
    decompress_ok_iff.mpr ⟨hctl.trans hceil.symm, acc, hacc, rfl⟩
  refine ⟨_, execDecomp_ok (s := { s with ecount := n }) hd' hf, complete_errPin _ _, decompress_length hd', fun e hen hes => ?_⟩
  rw [← hseq, complete_seqVal, State.seqVal, values_store, List.getElem?_take_of_lt hen, List.getElem?_take_of_lt hes]

end Sys2Proof.Machine
end

section
/-! The envelope's framing (43_envelope.md R131, R132, R134): `deserialize` gives three parts exactly on the envelope `serialize`
makes of them with `ceil4` of the count control bytes. -/

namespace Sys2Proof.Machine

/-! ### The four bytes of the count -/

/-- Up to four bytes are the bytes of the word they make. -/
theorem leBytes_leWord {l : List Byte} (h : l.length ≤ 4) : leBytes (leWord l) l.length = l := by
  induction l with
  | nil => rfl
  | cons b bs ih =>
    have hbs : bs.length ≤ 4 := (Nat.le_succ _).trans h
    have hb := b.isLt
    have hlow : (leWord (b :: bs)).setWidth 8 = b := by
      apply BitVec.eq_of_toNat_eq
      rw [BitVec.toNat_setWidth, leWord_toNat _ h, leValue]
      omega
    have hhigh : leWord (b :: bs) >>> 8 = leWord bs := by
      apply BitVec.eq_of_toNat_eq
      rw [BitVec.toNat_ushiftRight, Nat.shiftRight_eq_div_pow, leWord_toNat _ h, leWord_toNat _ hbs, leValue]
      omega
    rw [List.length_cons, leBytes, hlow, hhigh, ih hbs]

theorem leBytes_four (v : Word) :
    leBytes v 4 = [v.extractLsb' 0 8, v.extractLsb' 8 8, v.extractLsb' 16 8, v.extractLsb' 24 8] := by
  simp only [leBytes, ← BitVec.shiftRight_add, BitVec.setWidth_ushiftRight_eq_extractLsb]
  rw [BitVec.setWidth_eq_extractLsb' (by decide)]

/-! ### Serializing and deserializing -/

theorem take_four_serialize (pay ctl : List Byte) (n : Word) : (serialize pay ctl n).take 4 = leBytes n 4 := by
  rw [serialize, List.append_assoc, List.take_left' (leBytes_length n 4)]

theorem drop_four_serialize (pay ctl : List Byte) (n : Word) : (serialize pay ctl n).drop 4 = ctl ++ pay := by
  rw [serialize, List.append_assoc, List.drop_left' (leBytes_length n 4)]

theorem serialize_append (pay ctl rest : List Byte) (n : Word) : serialize pay ctl n ++ rest = serialize (pay ++ rest) ctl n :=
  List.append_assoc ..

theorem deserialize_serialize {pay ctl : List Byte} {n : Word} (h : ctl.length = ceil4 n.toNat) :
    deserialize (serialize pay ctl n) = some (pay, ctl, n) := by
  have hcount : leValue ((serialize pay ctl n).take 4) = n.toNat := by
    rw [take_four_serialize, leValue_leBytes]
    exact Nat.mod_eq_of_lt n.isLt
  rw [deserialize_some (by rw [hcount, serialize_length]; omega), hcount, ← List.drop_drop, drop_four_serialize,
    take_four_serialize, leWord_leBytes le_rfl n.isLt, List.drop_left' h, List.take_left' h]

theorem deserialize_eq_some_iff {env pay ctl : List Byte} {n : Word} :
    deserialize env = some (pay, ctl, n) ↔ ctl.length = ceil4 n.toNat ∧ serialize pay ctl n = env := by
  refine ⟨fun h => ?_, fun ⟨hctl, henv⟩ => henv ▸ deserialize_serialize hctl⟩
  rcases Nat.lt_or_ge env.length (4 + ceil4 (leValue (env.take 4))) with hlt | hle
  · rw [deserialize_none hlt] at h
    cases h
  · rw [deserialize_some hle] at h
    cases h
    have hfour : (env.take 4).length = 4 := by rw [List.length_take]; omega
    have hbytes : leBytes (leWord (env.take 4)) 4 = env.take 4 := by
      simpa only [hfour] using leBytes_leWord hfour.le
    constructor
    · rw [leWord_toNat _ hfour.le, List.length_take, List.length_drop]
      omega
    · rw [serialize, hbytes, List.append_assoc, ← List.drop_drop, List.take_append_drop, List.take_append_drop]

/-- What follows an envelope is taken for payload (R132). -/
theorem deserialize_append {env pay ctl : List Byte} {n : Word} (h : deserialize env = some (pay, ctl, n)) (rest : List Byte) :
    deserialize (env ++ rest) = some (pay ++ rest, ctl, n) := by
  obtain ⟨hctl, rfl⟩ := deserialize_eq_some_iff.mp h
  rw [serialize_append, deserialize_serialize hctl]

/-- Settles O27: both directions are `deserialize_eq_some_iff`. -/
theorem framingInverse : Obligations.FramingInverse :=
  ⟨fun _ _ _ => deserialize_eq_some_iff.trans (and_iff_left rfl), fun _ _ _ _ h => (deserialize_eq_some_iff.mp h).2⟩

end Sys2Proof.Machine
end

section
/-! The commands `SER` and `DESER` where they end without error, and the composite commands as the sequence of their two stages
(43_envelope.md R131, R133, R135). -/

namespace Sys2Proof.Machine

theorem execSer_fits {s : State} (h : fits (s.cfg.cap .env) (serialize s.payVal s.ctlVal s.ecount).length = true) :
    exec .ser s = .next (complete .noError { s with env := s.env.store (serialize s.payVal s.ctlVal s.ecount) }) := by
  simp only [exec_ser, serStage, h, if_true]

theorem execSer_noError {s t : State} (h : exec .ser s = .next t) (ht : t.errPin = 0#3) :
    t = complete .noError { s with env := s.env.store (serialize s.payVal s.ctlVal s.ecount) } := by
  rcases serStage_cases s with ⟨hf, -⟩ | ⟨-, hs⟩
  · rw [execSer_fits hf] at h
    cases h
    rfl
  · rw [exec_ser, hs] at h
    cases h
    rw [complete_errPin] at ht
    cases ht

/-- The three parts of an envelope as `DESER` leaves them. -/
def State.unpacked (s : State) (pay ctl : List Byte) (n : Word) : State :=
  { s with ctl := s.ctl.store ctl, pay := s.pay.store pay, ecount := n }

@[simp] theorem payVal_unpacked (s : State) (pay ctl : List Byte) (n : Word) : (s.unpacked pay ctl n).payVal = pay :=
  values_store (freeByte .pay) s.pay pay

@[simp] theorem ctlVal_unpacked (s : State) (pay ctl : List Byte) (n : Word) : (s.unpacked pay ctl n).ctlVal = ctl :=
  values_store (freeByte .ctl) s.ctl ctl

theorem execDeser_ok {s : State} {pay ctl : List Byte} {n : Word} (hd : deserialize s.envVal = some (pay, ctl, n))
    (hc : fits (s.cfg.cap .ctl) ctl.length = true) (hp : fits (s.cfg.cap .pay) pay.length = true) :
    exec .deser s = .next (complete .noError (s.unpacked pay ctl n)) := by
  simp only [exec_deser, deserStage, hd, hc, hp, Bool.and_self, if_true, State.unpacked]

/-- Settles O28: the bytes of the count are those of `leBytes_four`. -/
theorem serResult : Obligations.SerResult := by
  intro s hf
  have hfits : fits (s.cfg.cap .env) (serialize s.payVal s.ctlVal s.ecount).length = true := by
    rwa [serialize_length, length_ctlVal, length_payVal]
  refine ⟨_, execSer_fits hfits, ?_, complete_noError_eq _⟩
  rw [complete_envVal, State.envVal, values_store, serialize, leBytes_four]

/-- Settles O29: the parts are those of `deserialize_some`, with the lengths the capacities are checked for. -/
theorem deserResult : Obligations.DeserResult := by
  intro s hlen hc hp
  rw [← length_envVal] at hlen hp
  have hctl : ((s.envVal.drop 4).take (ceil4 (leValue (s.envVal.take 4)))).length = ceil4 (leValue (s.envVal.take 4)) := by
    rw [List.length_take, List.length_drop]
    omega
  have hpay : (s.envVal.drop (4 + ceil4 (leValue (s.envVal.take 4)))).length =
      s.envVal.length - 4 - ceil4 (leValue (s.envVal.take 4)) := by
    rw [List.length_drop, Nat.sub_add_eq]
  have hcount : (leWord (s.envVal.take 4)).toNat = leValue (s.envVal.take 4) := leWord_toNat _ (List.length_take_le _ _)
  rw [← hctl] at hc
  rw [← hpay] at hp
  refine ⟨_, execDeser_ok (deserialize_some hlen) hc hp, hcount, ?_, ?_, complete_noError_eq _⟩
  · exact hctl.trans (congrArg ceil4 hcount.symm)
  · rw [complete_ctlVal, complete_payVal, ctlVal_unpacked, payVal_unpacked, ← List.drop_drop, List.take_append_drop]

/-- Settles O30: `SER` runs alike before and after `COMP` is completed, for it does not see `STATUS`. -/
theorem compenvIsCompThenSer : Obligations.CompenvIsCompThenSer := by
  intro s t diff h
  rcases hs : compStage diff s with ⟨s1, e⟩
  rw [exec_comp, hs] at h
  cases h
  rw [complete_errPin]
  constructor
  · intro he
    obtain rfl : e = .noError := errCode_injective he
    rw [execCompenv_second hs, exec_ser, serStage_complete, complete_complete]
  · intro he
    exact ⟨_, execCompenv_first hs (mt (congrArg errCode) he), values_clear _ _, rfl⟩

/-- Settles O31: `DECOMP` runs alike before and after `DESER` is completed, for it does not see `STATUS`. -/
theorem decompenvIsDeserThenDecomp : Obligations.DecompenvIsDeserThenDecomp := by
  intro s t diff h
  rcases hs : deserStage s with ⟨s1, e⟩
  rw [exec_deser, hs] at h
  cases h
  rw [complete_errPin]
  constructor
  · intro he
    obtain rfl : e = .noError := errCode_injective he
    rw [execDecompenv_second hs, exec_decomp, decompStage_complete, complete_complete]
  · intro he
    exact ⟨_, execDecompenv_first hs (mt (congrArg errCode) he), values_clear _ _, rfl⟩

end Sys2Proof.Machine
end

section
/-! The commands `COMPENV` and `DECOMPENV` (43_envelope.md R136 to R138): the envelope of the compressed sequence, the way back,
and that no envelope cut short decompresses. -/

namespace Sys2Proof.Machine

/-! ### Success of both stages -/

/-- The envelope of the compressed sequence (R136). -/
def State.envelope (s : State) (diff : Bool) : List Byte :=
  serialize (compress s.cfg.ctrlOrder diff s.seqVal).1 (compress s.cfg.ctrlOrder diff s.seqVal).2 (BitVec.ofNat 32 s.seq.len)

theorem serialize_compressed (s : State) (diff : Bool) :
    serialize (s.compressed diff).payVal (s.compressed diff).ctlVal (s.compressed diff).ecount = s.envelope diff := by
  rw [payVal_compressed, ctlVal_compressed]
  rfl

theorem length_envelope (s : State) (diff : Bool) :
    (s.envelope diff).length = 4 + ceil4 s.seq.len + (compress s.cfg.ctrlOrder diff s.seqVal).1.length := by
  rw [State.envelope, serialize_length, length_compress_snd, length_seqVal]

theorem deserialize_envelope {s : State} (h : s.seq.len < 2 ^ 32) (diff : Bool) :
    deserialize (s.envelope diff) = some ((compress s.cfg.ctrlOrder diff s.seqVal).1,
      (compress s.cfg.ctrlOrder diff s.seqVal).2, BitVec.ofNat 32 s.seq.len) := by
  apply deserialize_serialize
  rw [length_compress_snd, length_seqVal, BitVec.toNat_ofNat, Nat.mod_eq_of_lt h]

theorem execCompenv_fits {s : State} {diff : Bool}
    (hp : fits (s.cfg.cap .pay) (compress s.cfg.ctrlOrder diff s.seqVal).1.length = true)
    (hc : fits (s.cfg.cap .ctl) (compress s.cfg.ctrlOrder diff s.seqVal).2.length = true)
    (he : fits (s.cfg.cap .env) (s.envelope diff).length = true) :
    exec (.compenv diff) s =
      .next (complete .noError { s.compressed diff with env := s.env.store (s.envelope diff) }) := by
  rw [(compenvIsCompThenSer s _ diff (execComp_fits hp hc)).1 (complete_errPin _ _)]
  rw [← serialize_compressed] at he ⊢
  exact execSer_fits (s := complete .noError (s.compressed diff)) he

/-- Where `COMPENV` succeeds, its outputs fitted. -/
theorem execCompenv_noError {s t : State} {diff : Bool} (h : exec (.compenv diff) s = .next t) (ht : t.errPin = 0#3) :
    fits (s.cfg.cap .pay) (compress s.cfg.ctrlOrder diff s.seqVal).1.length = true ∧
      fits (s.cfg.cap .ctl) (compress s.cfg.ctrlOrder diff s.seqVal).2.length = true ∧ t.envVal = s.envelope diff := by
  rcases compStage_cases diff s with ⟨hp, hc, -⟩ | ⟨-, hs⟩
  · rw [(compenvIsCompThenSer s _ diff (execComp_fits hp hc)).1 (complete_errPin _ _)] at h
    rw [execSer_noError h ht, complete_envVal, State.envVal, values_store]
    exact ⟨hp, hc, serialize_compressed s diff⟩
  · rw [execCompenv_first hs (by decide)] at h
    cases h
    rw [complete_errPin] at ht
    cases ht

/-- Where the envelope's parts fit, `DECOMPENV` is `DECOMP` on them. -/
theorem execDecompenv_unpacked {s : State} (diff : Bool) {pay ctl : List Byte} {n : Word}
    (hd : deserialize s.envVal = some (pay, ctl, n)) (hc : fits (s.cfg.cap .ctl) ctl.length = true)
    (hp : fits (s.cfg.cap .pay) pay.length = true) :
    exec (.decompenv diff) s = exec (.decomp diff) (complete .noError (s.unpacked pay ctl n)) :=
  (decompenvIsDeserThenDecomp s _ diff (execDeser_ok hd hc hp)).1 (complete_errPin _ _)

theorem execDecompenv_ok {s : State} {diff : Bool} {pay ctl : List Byte} {n : Word} {out : List Word}
    (hd : deserialize s.envVal = some (pay, ctl, n)) (hc : fits (s.cfg.cap .ctl) ctl.length = true)
    (hp : fits (s.cfg.cap .pay) pay.length = true) (ho : decompress s.cfg.ctrlOrder diff pay ctl n.toNat = .ok out)
    (hs : fits (s.cfg.cap .seq) n.toNat = true) :
    exec (.decompenv diff) s = .next (complete .noError { s.unpacked pay ctl n with seq := s.seq.store out }) := by
  rw [execDecompenv_unpacked diff hd hc hp]
  refine execDecomp_ok ?_ hs
  rwa [complete_payVal, complete_ctlVal, payVal_unpacked, ctlVal_unpacked]

/-- Settles O32: `COMPENV` succeeds where its outputs fit, and leaves `compress` and its envelope. -/
theorem compenvResult : Obligations.CompenvResult := by
  intro s diff hlen hp hc he
  rw [← length_envelope] at he
  rw [← length_seqVal, ← length_compress_snd s.cfg.ctrlOrder diff] at hc
  refine ⟨_, execCompenv_fits hp hc he, ?_, ?_, toNat_ecount_compressed hlen diff, complete_noError_eq _⟩
  · rw [complete_envVal, State.envVal, values_store]
    exact (serialize_compressed s diff).symm
  · exact Prod.ext (payVal_compressed s diff) (ctlVal_compressed s diff)

/-- Settles O33: the outputs are those of the two stages, the sequence as long as the count asks for. -/
theorem decompenvResult : Obligations.DecompenvResult := by
  intro s diff pay ctl n out hd ho hc hp hs
  exact ⟨_, execDecompenv_ok hd hc hp ho hs, values_store _ _ _, decompress_length ho, ctlVal_unpacked s pay ctl n,
    payVal_unpacked s pay ctl n, rfl, complete_noError_eq _⟩

/-- Settles O34: the envelope's parts are those `streamRoundTrip` decompresses. -/
theorem envelopeRoundTrip : Obligations.EnvelopeRoundTrip := by
  intro s t u diff hlen h ht hcfg henv
  obtain ⟨hp, hc, henvelope⟩ := execCompenv_noError h ht
  have hlt : s.seq.len < 2 ^ 32 := hlen.trans_lt s.cfg.seqCap.isLt
  have hn : (BitVec.ofNat 32 s.seq.len).toNat = s.seqVal.length := by
    rw [BitVec.toNat_ofNat, Nat.mod_eq_of_lt hlt, length_seqVal]
  have hd := deserialize_envelope hlt diff
  rw [← henvelope, ← henv] at hd
  have ho := streamRoundTrip s.cfg.ctrlOrder diff s.seqVal []
  rw [List.append_nil, ← hn] at ho
  have hs : fits (s.cfg.cap .seq) (BitVec.ofNat 32 s.seq.len).toNat = true := by
    rw [hn, length_seqVal]
    exact decide_eq_true hlen
  exact ⟨_, execDecompenv_ok hd (by rwa [hcfg]) (by rwa [hcfg]) (by rwa [hcfg]) (by rwa [hcfg]), complete_errPin _ _,
    values_store _ _ _⟩

/-! ### Truncated envelopes (R138) -/

/-- A payload shorter than its control bytes declare starves some quad. -/
theorem starves_of_length_lt {o : CtrlOrder} {pay ctl : List Byte} (h : pay.length < (ctl.map (qlen o)).sum) :
    Starves o pay ctl := by
  induction ctl generalizing pay with
  | nil => exact absurd h (Nat.not_lt_zero _)
  | cons c ctl ih =>
    rw [starves_cons]
    rcases Nat.lt_or_ge pay.length (qlen o c) with hlt | hle
    · exact .inl hlt
    · refine .inr (ih ?_)
      rw [List.map_cons, List.sum_cons] at h
      rw [List.length_drop]
      omega

theorem decompress_truncated {o : CtrlOrder} {pay ctl : List Byte} {n : Nat} (diff : Bool) (hctl : ctl.length = ceil4 n)
    (hpay : Starves o pay ctl) : decompress o diff pay ctl n = .error .truncatedInput := by
  simp only [decompress, hctl, ne_eq, not_true_eq_false, if_false, (decodeQuads_length o diff ctl pay).1.mpr hpay]

theorem execDecomp_error {s : State} {diff : Bool} {e : Err}
    (h : decompress s.cfg.ctrlOrder diff s.payVal s.ctlVal s.ecount.toNat = .error e) :
    exec (.decomp diff) s = .next (complete e { s with seq := s.seq.clear }) := by
  simp only [exec_decomp, decompStage, h]

/-- An envelope too short for its control bytes stops the first stage. -/
theorem execDecompenv_truncated {s : State} (diff : Bool) (hd : deserialize s.envVal = none) :
    ∃ t, exec (.decompenv diff) s = .next t ∧ t.errPin = 1#3 ∧ t.seqVal = [] := by
  have hs : deserStage s = ({ s with ctl := s.ctl.clear, pay := s.pay.clear }, .truncatedInput) := by
    simp only [deserStage, hd]
  exact ⟨_, execDecompenv_first hs (by decide), complete_errPin _ _, values_clear _ _⟩

/-- An envelope with all control bytes whose payload starves some quad stops the second. -/
theorem execDecompenv_starves {s : State} (diff : Bool) {pay ctl : List Byte} {n : Word}
    (hd : deserialize s.envVal = some (pay, ctl, n)) (hc : fits (s.cfg.cap .ctl) ctl.length = true)
    (hp : fits (s.cfg.cap .pay) pay.length = true) (hstarve : Starves s.cfg.ctrlOrder pay ctl) :
    ∃ t, exec (.decompenv diff) s = .next t ∧ t.errPin = 1#3 ∧ t.seqVal = [] := by
  have ho := decompress_truncated diff (deserialize_eq_some_iff.mp hd).1 hstarve
  rw [execDecompenv_unpacked diff hd hc hp]
  refine ⟨_, execDecomp_error (e := .truncatedInput) ?_, complete_errPin _ _, values_clear _ _⟩
  rwa [complete_payVal, complete_ctlVal, payVal_unpacked, ctlVal_unpacked]

/-- Settles O35: where what is left still deserializes, it lacks payload bytes alone (`deserialize_append`), so the payload is
shorter than the control bytes declare. -/
theorem truncatedEnvelopeIsRejected : Obligations.TruncatedEnvelopeIsRejected := by
  intro s t u diff k hlen h ht hcfg hk henv
  obtain ⟨hp, hc, henvelope⟩ := execCompenv_noError h ht
  cases hd : deserialize u.envVal with
  | none => exact execDecompenv_truncated diff hd
  | some parts =>
    obtain ⟨pay, ctl, n⟩ := parts
    have hwhole := deserialize_append hd (t.envVal.drop k)
    rw [henv, List.take_append_drop, henvelope, deserialize_envelope (hlen.trans_lt s.cfg.seqCap.isLt), ← henvelope] at hwhole
    obtain ⟨hpay, rfl, -⟩ : _ ∧ _ ∧ _ := by simpa only [Option.some.injEq, Prod.mk.injEq] using hwhole
    have hshort : pay.length < (compress s.cfg.ctrlOrder diff s.seqVal).1.length := by
      rw [hpay, List.length_append, List.length_drop]
      omega
    have hstarve := starves_of_length_lt (length_compress_fst s.cfg.ctrlOrder diff s.seqVal ▸ hshort)
    exact execDecompenv_starves diff hd (by rwa [hcfg]) (by rw [hcfg]; exact fits_total hp hshort.le) (by rwa [hcfg])

end Sys2Proof.Machine
end

section
/-! The life cycle of a command (60_exceptions.md R150, R154, R157, R160): it starts at an accepted write of `CMD`, every command
runs to its end, and no other step but a reset changes `STATUS`. -/

namespace Sys2Proof.Machine

/-! ### Every command ends (R154) -/

/-- Every command is some state completed, with some error or with none. -/
theorem exec_ends (i : Instr) (s : State) : ∃ e u, exec i s = .next (complete e u) := by
  cases i with
  | qenc =>
    cases hf : fits (s.cfg.cap .pay) (quadEncode s.cfg.ctrlOrder s.q).1.length with
    | true => exact ⟨_, _, execQenc_fits s hf⟩
    | false => exact ⟨_, _, execQenc_overflow s hf⟩
  | qdec =>
    cases hd : quadDecode s.cfg.ctrlOrder s.payVal s.ctrlb with
    | none => exact ⟨_, _, execQdec_truncated s hd⟩
    | some r => exact ⟨_, _, execQdec_ok s r.1 r.2 hd⟩
  | denc diff r => exact ⟨_, _, exec_denc diff r s⟩
  | ddec diff => exact ⟨_, _, exec_ddec diff s⟩
  | comp diff => exact ⟨_, _, exec_comp diff s⟩
  | decomp diff => exact ⟨_, _, exec_decomp diff s⟩
  | ser => exact ⟨_, _, exec_ser s⟩
  | deser => exact ⟨_, _, exec_deser s⟩
  | compenv diff =>
    rcases hs : compStage diff s with ⟨s1, e⟩
    by_cases he : e = .noError
    · exact ⟨_, _, execCompenv_second (he ▸ hs)⟩
    · exact ⟨_, _, execCompenv_first hs he⟩
  | decompenv diff =>
    rcases hs : deserStage s with ⟨s1, e⟩
    by_cases he : e = .noError
    · exact ⟨_, _, execDecompenv_second (he ▸ hs)⟩
    · exact ⟨_, _, execDecompenv_first hs he⟩

theorem errCode_toNat_le (e : Err) : (errCode e).toNat ≤ 4 := by
  cases e <;> decide

/-- `STATUS` of a completed command as a number: `done` is bit 1, the error code begins at bit 2 (R16). -/
theorem complete_status_toNat (e : Err) (s : State) : (complete e s).status.toNat = 2 + 4 * (errCode e).toNat := by
  rw [complete_status]
  cases e <;> decide

/-- Settles O36: the command ends by `exec_ends`, and what it leaves outside its operands is O57. -/
theorem everyCommandCompletes : Obligations.EveryCommandCompletes := by
  intro i s
  obtain ⟨e, u, h⟩ := exec_ends i s
  refine ⟨complete e u, h, complete_busy e u, complete_donePin e u, ?_, ?_, (commandsKeepToTheirFootprint i s _ h).2⟩
  · rw [complete_errPin]
    exact errCode_toNat_le e
  · rw [complete_errPin]
    exact complete_status_toNat e u

/-! ### The running block -/

theorem busy_of_status {s : State} (h : s.status = 0x01#8) : s.busy = true := by
  rw [State.busy, h]
  decide

theorem errPin_of_status {s : State} (h : s.status = 0x01#8) : s.errPin = 0#3 := by
  rw [State.errPin, h]
  decide

theorem runCommand_legal {s : State} {i : Instr} (h : decode s.cmdr = .ok i) : runCommand s = exec i s := by
  simp only [runCommand, h]

/-- A byte that is no command changes `STATUS` alone (R157). -/
theorem runCommand_illegal {s : State} {why : DecodeReject} (h : decode s.cmdr = .error why) :
    runCommand s = .next { s with status := 0x0E#8 } := by
  simp only [runCommand, h, complete, statusWord_done]

theorem runCommand_ends (s : State) : ∃ e u, runCommand s = .next (complete e u) := by
  unfold runCommand
  split
  · exact exec_ends _ s
  · exact ⟨_, s, rfl⟩

theorem step_busy_nil {s : State} (h : s.busy = true) (hi : s.inbox = []) : step s = runCommand s := by
  simp only [step_busy h, moveBusy, hi]

theorem step_busy_elapse {s : State} {es : List HostEvent} (h : s.busy = true) (hi : s.inbox = .elapse :: es) :
    step s = runCommand { s with inbox := es } := by
  simp only [step_busy h, moveBusy, hi]

theorem step_illegal_nil {s : State} {why : DecodeReject} (h : s.busy = true) (hi : s.inbox = [])
    (hd : decode s.cmdr = .error why) : step s = .next { s with status := 0x0E#8 } :=
  (step_busy_nil h hi).trans (runCommand_illegal hd)

theorem step_illegal_elapse {s : State} {es : List HostEvent} {why : DecodeReject} (h : s.busy = true)
    (hi : s.inbox = .elapse :: es) (hd : decode s.cmdr = .error why) :
    step s = .next { s with inbox := es, status := 0x0E#8 } :=
  (step_busy_elapse h hi).trans (runCommand_illegal hd)

/-- Settles O44: the placed byte is latched in a busy block at whose interface time passes next. -/
theorem fetchWordRunsNext : Obligations.FetchWordRunsNext := by
  intro s w i h
  have hbyte : BitVec.ofNat 8 (w % 2 ^ 8) = BitVec.ofNat 8 w := BitVec.eq_of_toNat_eq (by simp)
  have hstart : s.withFetchWord 8 w = { s with cmdr := BitVec.ofNat 8 w, status := 0x01#8, inbox := .elapse :: s.inbox } := by
    simp only [State.withFetchWord, startCommand, hbyte, statusWord_start]
  rw [hstart, step_busy_elapse (busy_of_status rfl) rfl]
  exact runCommand_legal h

/-! ### The accepted write (R150) -/

/-- Settles O42: the write is performed, and it is `startCommand`. -/
theorem acceptedCommandStarts : Obligations.AcceptedCommandStarts := by
  intro s es c hbusy hheld hinbox hc
  rw [step_idle hbusy hheld]
  simp only [moveIdle, hinbox]
  exact if_pos hc

/-- Settles O41: the running block by `step_illegal_nil` and `step_illegal_elapse`; the idle one starts by O42 and is then such a
running block. -/
theorem illegalCommandTouchesNothing : Obligations.IllegalCommandTouchesNothing := by
  refine ⟨fun s why hbusy hd => ⟨fun hi => step_illegal_nil hbusy hi hd, fun es hi => step_illegal_elapse hbusy hi hd⟩,
    fun s c why hbusy hheld hc hd => ⟨fun hi => ?_, fun es hi => ?_⟩⟩
  · refine ⟨_, acceptedCommandStarts s [] c hbusy hheld hi hc, busy_of_status rfl, errPin_of_status rfl, ?_⟩
    exact step_illegal_nil (busy_of_status rfl) rfl hd
  · refine ⟨_, acceptedCommandStarts s (.elapse :: es) c hbusy hheld hi hc, busy_of_status rfl, errPin_of_status rfl, ?_⟩
    exact step_illegal_elapse (busy_of_status rfl) rfl hd

/-! ### What changes `STATUS` (R160) -/

/-- The one access that changes `STATUS` is the write of a byte to `CMD`. -/
theorem perform_status {a : HostAccess} {s t : State} (h : perform a s = .next t) :
    t.status = s.status ∨ ∃ c, a = .regWrite 0x00 c ∧ c < 256 ∧ t = startCommand (BitVec.ofNat 8 c) s := by
  rcases perform_cases h with ⟨v, ht⟩ | ⟨n, v, rfl, hw⟩ | ⟨X, i, v, -, -, -, rfl⟩
  · exact .inl ((congrArg State.status ht).trans rfl)
  · rcases regWrite_cases hw with ⟨hcmd, hv, ht⟩ | ⟨X, -, -, rfl⟩ | ⟨-, ht⟩
    · obtain rfl : n = 0x00 := not_not.mp (mt regOf_ne_cmd (not_not.mpr hcmd))
      exact .inr ⟨v, rfl, hv, ht⟩
    · exact .inl (setRegionLen_status s X v)
    · exact .inl ((congrArg State.status ht).trans rfl)
  · exact .inl (writeElem_status s X i v)

/-- Settles O45: each way a step can go (`step_cases`) is one of the three events or leaves `STATUS` as it was. -/
theorem statusChangesOnlyByTheseEvents : Obligations.StatusChangesOnlyByTheseEvents := by
  intro s t h hne
  obtain ⟨s', hs', hcases⟩ := step_cases s
  have hstatus : s'.status = s.status := (congrArg State.status hs').trans rfl
  rcases hcases with ⟨hbusy, -, hx⟩ | ⟨hi, -, hx⟩ | ⟨a, -, -, -, hx⟩ | ⟨a, -, hserved, -, hx⟩ | ⟨a, hbusy, hnone, hi, -, hx⟩ |
    ⟨a, hbusy, hheld, hx⟩ | ⟨-, -, hx⟩ <;> rw [hx] at h
  · obtain ⟨e, u, hrun⟩ := runCommand_ends s'
    rw [hrun] at h
    cases h
    exact .inr (.inl ⟨hbusy, complete_busy e u, complete_donePin e u⟩)
  · cases h
    exact .inr (.inr ⟨rfl, by rw [hi]; rfl⟩)
  · cases h
    exact absurd hstatus hne
  · rcases perform_status h with ht | ⟨c, rfl, -, -⟩
    · exact absurd (ht.trans hstatus) hne
    · cases hserved
  · rcases perform_status h with ht | ⟨c, rfl, hc, rfl⟩
    · exact absurd (ht.trans hstatus) hne
    · exact .inl ⟨hbusy, startCommand_status _ _, c, hc, rfl, .inr ⟨hnone, by rw [hi]; rfl⟩⟩
  · rcases perform_status h with ht | ⟨c, rfl, hc, rfl⟩
    · exact absurd (ht.trans hstatus) hne
    · exact .inl ⟨hbusy, startCommand_status _ _, c, hc, rfl, .inl (by rw [hheld]; rfl)⟩
  · cases h
    exact absurd hstatus hne

end Sys2Proof.Machine
end

section
/-! The ways each command can end (60_exceptions.md R152 to R159): one case per error, with the exact condition on the state before the
command and, where it fails, the state it leaves. -/

namespace Sys2Proof.Machine

/-! ### Error codes (R151) -/

theorem errCode_eq_zero_iff (e : Err) : errCode e = 0#3 ↔ e = .noError := by
  cases e <;> decide

theorem errCode_eq_one_iff (e : Err) : errCode e = 1#3 ↔ e = .truncatedInput := by
  cases e <;> decide

theorem errCode_eq_two_iff (e : Err) : errCode e = 2#3 ↔ e = .controlByteCountMismatch := by
  cases e <;> decide

theorem errCode_eq_four_iff (e : Err) : errCode e = 4#3 ↔ e = .regionOverflow := by
  cases e <;> decide

/-! ### Single commands: one case per way to end -/

theorem exec_qenc_cases {s t : State} (h : exec .qenc s = .next t) :
    (fits s.cfg.payCap (klen s.q.v0 + klen s.q.v1 + klen s.q.v2 + klen s.q.v3) = true ∧ ∃ u, t = complete .noError u) ∨
    (fits s.cfg.payCap (klen s.q.v0 + klen s.q.v1 + klen s.q.v2 + klen s.q.v3) = false ∧
      t = complete .regionOverflow { s with pay := s.pay.clear }) := by
  rw [← quadEncode_data_length s.cfg.ctrlOrder]
  cases hf : fits s.cfg.payCap (quadEncode s.cfg.ctrlOrder s.q).1.length with
  | true =>
    rw [execQenc_fits s hf] at h
    cases h
    exact .inl ⟨rfl, _, rfl⟩
  | false =>
    rw [execQenc_overflow s hf] at h
    cases h
    exact .inr ⟨rfl, rfl⟩

theorem exec_qdec_cases {s t : State} (h : exec .qdec s = .next t) :
    (s.pay.len < qlen s.cfg.ctrlOrder s.ctrlb ∧ t = complete .truncatedInput s) ∨
    (qlen s.cfg.ctrlOrder s.ctrlb ≤ s.pay.len ∧ ∃ u, t = complete .noError u) := by
  have hnone := quadDecode_none_iff s.cfg.ctrlOrder s.payVal s.ctrlb
  rw [length_payVal] at hnone
  cases hd : quadDecode s.cfg.ctrlOrder s.payVal s.ctrlb with
  | none =>
    rw [execQdec_truncated s hd] at h
    cases h
    exact .inl ⟨hnone.mp hd, rfl⟩
  | some r =>
    rw [execQdec_ok s r.1 r.2 hd] at h
    cases h
    exact .inr ⟨Nat.not_lt.mp (mt hnone.mpr (by simp [hd])), _, rfl⟩

theorem exec_comp_cases {s t : State} {diff : Bool} (h : exec (.comp diff) s = .next t) :
    (fits s.cfg.payCap (compress s.cfg.ctrlOrder diff s.seqVal).1.length = true ∧ fits s.cfg.ctlCap (ceil4 s.seq.len) = true ∧
      t = complete .noError (s.compressed diff)) ∨
    ((fits s.cfg.payCap (compress s.cfg.ctrlOrder diff s.seqVal).1.length = false ∨
        fits s.cfg.ctlCap (ceil4 s.seq.len) = false) ∧
      t = complete .regionOverflow { s with pay := s.pay.clear, ctl := s.ctl.clear }) := by
  rw [exec_comp] at h
  rw [← length_seqVal, ← length_compress_snd s.cfg.ctrlOrder diff]
  rcases compStage_cases diff s with ⟨hp, hc, hs⟩ | ⟨hf, hs⟩ <;> rw [hs] at h <;> cases h
  · exact .inl ⟨hp, hc, rfl⟩
  · exact .inr ⟨hf, rfl⟩

theorem exec_ser_cases {s t : State} (h : exec .ser s = .next t) :
    (fits s.cfg.envCap (4 + s.ctl.len + s.pay.len) = true ∧ ∃ u, t = complete .noError u) ∨
    (fits s.cfg.envCap (4 + s.ctl.len + s.pay.len) = false ∧ t = complete .regionOverflow { s with env := s.env.clear }) := by
  rw [exec_ser] at h
  rw [← length_ctlVal, ← length_payVal, ← serialize_length s.payVal s.ctlVal s.ecount]
  rcases serStage_cases s with ⟨hf, hs⟩ | ⟨hf, hs⟩ <;> rw [hs] at h <;> cases h
  · exact .inl ⟨hf, _, rfl⟩
  · exact .inr ⟨hf, rfl⟩

/-! ### `DECOMP`: the checks in the order of R159 -/

theorem decompress_countMismatch {o : CtrlOrder} {diff : Bool} {pay ctl : List Byte} {n : Nat} (h : ctl.length ≠ ceil4 n) :
    decompress o diff pay ctl n = .error .controlByteCountMismatch :=
  if_pos h

theorem decompress_ok_of_not_starves {o : CtrlOrder} (diff : Bool) {pay ctl : List Byte} {n : Nat} (hctl : ctl.length = ceil4 n)
    (h : ¬ Starves o pay ctl) : ∃ out, decompress o diff pay ctl n = .ok out := by
  obtain ⟨acc, hacc⟩ := Option.ne_none_iff_exists'.mp (mt (decodeQuads_length o diff ctl pay).1.mp h)
  exact ⟨_, decompress_ok_iff.mpr ⟨hctl, acc, hacc, rfl⟩⟩

theorem execDecomp_overflow {s : State} {diff : Bool} {out : List Word}
    (hd : decompress s.cfg.ctrlOrder diff s.payVal s.ctlVal s.ecount.toNat = .ok out)
    (hf : fits (s.cfg.cap .seq) s.ecount.toNat = false) :
    exec (.decomp diff) s = .next (complete .regionOverflow { s with seq := s.seq.clear }) := by
  simp [exec_decomp, decompStage, hd, hf]

theorem exec_decomp_cases {s t : State} {diff : Bool} (h : exec (.decomp diff) s = .next t) :
    (s.ctl.len ≠ ceil4 s.ecount.toNat ∧ t = complete .controlByteCountMismatch { s with seq := s.seq.clear }) ∨
    (s.ctl.len = ceil4 s.ecount.toNat ∧ Starves s.cfg.ctrlOrder s.payVal s.ctlVal ∧
      t = complete .truncatedInput { s with seq := s.seq.clear }) ∨
    (s.ctl.len = ceil4 s.ecount.toNat ∧ ¬ Starves s.cfg.ctrlOrder s.payVal s.ctlVal ∧ s.cfg.seqCap.val < s.ecount.toNat ∧
      t = complete .regionOverflow { s with seq := s.seq.clear }) ∨
    (s.ctl.len = ceil4 s.ecount.toNat ∧ ¬ Starves s.cfg.ctrlOrder s.payVal s.ctlVal ∧ s.ecount.toNat ≤ s.cfg.seqCap.val ∧
      ∃ u, t = complete .noError u) := by
  rw [← length_ctlVal]
  by_cases hctl : s.ctlVal.length = ceil4 s.ecount.toNat
  · by_cases hst : Starves s.cfg.ctrlOrder s.payVal s.ctlVal
    · rw [execDecomp_error (decompress_truncated diff hctl hst)] at h
      cases h
      exact .inr (.inl ⟨hctl, hst, rfl⟩)
    · obtain ⟨out, hd⟩ := decompress_ok_of_not_starves diff hctl hst
      rcases Nat.lt_or_ge s.cfg.seqCap.val s.ecount.toNat with hlt | hle
      · rw [execDecomp_overflow hd (decide_eq_false (Nat.not_le.mpr hlt))] at h
        cases h
        exact .inr (.inr (.inl ⟨hctl, hst, hlt, rfl⟩))
      · rw [execDecomp_ok hd (decide_eq_true hle)] at h
        cases h
        exact .inr (.inr (.inr ⟨hctl, hst, hle, _, rfl⟩))
  · rw [execDecomp_error (decompress_countMismatch hctl)] at h
    cases h
    exact .inl ⟨hctl, rfl⟩

/-! ### `DESER` -/

/-- The lengths of an envelope's parts, in terms of the count in its first four bytes (R132). -/
theorem deserialize_some_lengths {env pay ctl : List Byte} {n : Word} (h : deserialize env = some (pay, ctl, n)) :
    n.toNat = leValue (env.take 4) ∧ ctl.length = ceil4 (leValue (env.take 4)) ∧ env.length = 4 + ctl.length + pay.length := by
  obtain ⟨hctl, rfl⟩ := deserialize_eq_some_iff.mp h
  have hcount : leValue ((serialize pay ctl n).take 4) = n.toNat := by
    rw [take_four_serialize, leValue_leBytes]
    exact Nat.mod_eq_of_lt n.isLt
  exact ⟨hcount.symm, hcount ▸ hctl, serialize_length pay ctl n⟩

theorem exec_deser_cases {s t : State} (h : exec .deser s = .next t) :
    (s.env.len < 4 + ceil4 (leValue (s.envVal.take 4)) ∧
      t = complete .truncatedInput { s with ctl := s.ctl.clear, pay := s.pay.clear }) ∨
    (4 + ceil4 (leValue (s.envVal.take 4)) ≤ s.env.len ∧ (fits s.cfg.ctlCap (ceil4 (leValue (s.envVal.take 4))) = false ∨
        fits s.cfg.payCap (s.env.len - 4 - ceil4 (leValue (s.envVal.take 4))) = false) ∧
      t = complete .regionOverflow { s with ctl := s.ctl.clear, pay := s.pay.clear }) ∨
    (4 + ceil4 (leValue (s.envVal.take 4)) ≤ s.env.len ∧ fits s.cfg.ctlCap (ceil4 (leValue (s.envVal.take 4))) = true ∧
      fits s.cfg.payCap (s.env.len - 4 - ceil4 (leValue (s.envVal.take 4))) = true ∧
      t.ctl.len = ceil4 t.ecount.toNat ∧ ∃ u, t = complete .noError u) := by
  rw [exec_deser] at h
  rw [← length_envVal]
  rcases deserStage_cases s with ⟨pay, ctl, n, hd, hc, hp, hs⟩ | ⟨pay, ctl, n, hd, hf, hs⟩ | ⟨hd, hs⟩ <;> rw [hs] at h <;> cases h
  · obtain ⟨hn, hctl, hlen⟩ := deserialize_some_lengths hd
    have hpay : s.envVal.length - 4 - ceil4 (leValue (s.envVal.take 4)) = pay.length := by omega
    rw [hpay, ← hctl]
    exact .inr (.inr ⟨by omega, hc, hp, hctl.trans (congrArg ceil4 hn.symm), _, rfl⟩)
  · obtain ⟨-, hctl, hlen⟩ := deserialize_some_lengths hd
    have hpay : s.envVal.length - 4 - ceil4 (leValue (s.envVal.take 4)) = pay.length := by omega
    rw [hpay, ← hctl]
    exact .inr (.inl ⟨by omega, hf, rfl⟩)
  · refine .inl ⟨Nat.not_le.mp fun hle => ?_, rfl⟩
    rw [deserialize_some hle] at hd
    cases hd

theorem execDeser_noError {s t : State} (h : exec .deser s = .next t) (ht : t.errPin = 0#3) : t.ctl.len = ceil4 t.ecount.toNat := by
  rcases exec_deser_cases h with ⟨-, rfl⟩ | ⟨-, -, rfl⟩ | ⟨-, -, -, hlen, -⟩
  · simp [errCode_eq_zero_iff] at ht
  · simp [errCode_eq_zero_iff] at ht
  · exact hlen

/-! ### Composite commands: the second stage runs if the first succeeded -/

theorem exec_compenv_cases {s t u : State} {diff : Bool} (ht : exec (.comp diff) s = .next t)
    (hu : exec (.compenv diff) s = .next u) :
    (t.errPin = 0#3 ∧ exec .ser t = .next u) ∨ (t.errPin ≠ 0#3 ∧ u.errPin = t.errPin ∧ u.envVal = []) := by
  obtain ⟨hok, hfail⟩ := compenvIsCompThenSer s t diff ht
  by_cases h0 : t.errPin = 0#3
  · exact .inl ⟨h0, (hok h0).symm.trans hu⟩
  · obtain ⟨u', hx, henv, hu'⟩ := hfail h0
    obtain rfl : u' = u := by simpa using hx.symm.trans hu
    exact .inr ⟨h0, (congrArg State.errPin hu').trans rfl, henv⟩

theorem exec_decompenv_cases {s t u : State} {diff : Bool} (ht : exec .deser s = .next t)
    (hu : exec (.decompenv diff) s = .next u) :
    (t.errPin = 0#3 ∧ exec (.decomp diff) t = .next u) ∨ (t.errPin ≠ 0#3 ∧ u.errPin = t.errPin ∧ u.seqVal = []) := by
  obtain ⟨hok, hfail⟩ := decompenvIsDeserThenDecomp s t diff ht
  by_cases h0 : t.errPin = 0#3
  · exact .inl ⟨h0, (hok h0).symm.trans hu⟩
  · obtain ⟨u', hx, hseq, hu'⟩ := hfail h0
    obtain rfl : u' = u := by simpa using hx.symm.trans hu
    exact .inr ⟨h0, (congrArg State.errPin hu').trans rfl, hseq⟩

end Sys2Proof.Machine
end

section
/-! The exact condition of each error (60_exceptions.md R152, R153, R158) and what a failing command leaves behind (R155), read off
the ways the commands can end. -/

namespace Sys2Proof.Machine

/-! ### `TruncatedInput` (R152) -/

theorem execQdec_truncated_iff {s t : State} (h : exec .qdec s = .next t) :
    t.errPin = 1#3 ↔ s.pay.len < qlen s.cfg.ctrlOrder s.ctrlb := by
  rcases exec_qdec_cases h with ⟨hlt, rfl⟩ | ⟨hle, u, rfl⟩ <;> rw [complete_errPin, errCode_eq_one_iff]
  · exact iff_of_true rfl hlt
  · exact iff_of_false nofun (Nat.not_lt.mpr hle)

theorem execDecomp_truncated_iff {s t : State} {diff : Bool} (h : exec (.decomp diff) s = .next t) :
    t.errPin = 1#3 ↔ s.ctl.len = ceil4 s.ecount.toNat ∧ Starves s.cfg.ctrlOrder s.payVal s.ctlVal := by
  rcases exec_decomp_cases h with ⟨hne, rfl⟩ | ⟨hctl, hst, rfl⟩ | ⟨-, hst, -, rfl⟩ | ⟨-, hst, -, u, rfl⟩ <;>
    rw [complete_errPin, errCode_eq_one_iff]
  · exact iff_of_false nofun fun hand => hne hand.1
  · exact iff_of_true rfl ⟨hctl, hst⟩
  · exact iff_of_false nofun fun hand => hst hand.2
  · exact iff_of_false nofun fun hand => hst hand.2

theorem execDeser_truncated_iff {s t : State} (h : exec .deser s = .next t) :
    t.errPin = 1#3 ↔ s.env.len < 4 + ceil4 (leValue (s.envVal.take 4)) := by
  rcases exec_deser_cases h with ⟨hlt, rfl⟩ | ⟨hle, -, rfl⟩ | ⟨hle, -, -, -, u, rfl⟩ <;> rw [complete_errPin, errCode_eq_one_iff]
  · exact iff_of_true rfl hlt
  · exact iff_of_false nofun (Nat.not_lt.mpr hle)
  · exact iff_of_false nofun (Nat.not_lt.mpr hle)

theorem execDecompenv_truncated_iff {s t u : State} {diff : Bool} (ht : exec .deser s = .next t)
    (hu : exec (.decompenv diff) s = .next u) :
    u.errPin = 1#3 ↔ t.errPin = 1#3 ∨ (t.errPin = 0#3 ∧ Starves t.cfg.ctrlOrder t.payVal t.ctlVal) := by
  rcases exec_decompenv_cases ht hu with ⟨h0, hsecond⟩ | ⟨h0, herr, -⟩
  · rw [execDecomp_truncated_iff hsecond]
    simp [h0, execDeser_noError ht h0]
  · simp [h0, herr]

/-- Settles O37: `QDEC` and the stages by their cases, `DECOMPENV` by its stages, the first of which leaves a count that agrees. -/
theorem truncatedInputExactly : Obligations.TruncatedInputExactly :=
  ⟨fun _ _ => execQdec_truncated_iff, fun _ _ _ => execDecomp_truncated_iff,
    fun _ _ h => (execDeser_truncated_iff h).trans (by omega), fun _ _ _ _ => execDecompenv_truncated_iff⟩

/-! ### `ControlByteCountMismatch` (R153) -/

theorem execDecomp_countMismatch_iff {s t : State} {diff : Bool} (h : exec (.decomp diff) s = .next t) :
    t.errPin = 2#3 ↔ s.ctl.len ≠ ceil4 s.ecount.toNat := by
  rcases exec_decomp_cases h with ⟨hne, rfl⟩ | ⟨hctl, -, rfl⟩ | ⟨hctl, -, -, rfl⟩ | ⟨hctl, -, -, u, rfl⟩ <;>
    rw [complete_errPin, errCode_eq_two_iff]
  · exact iff_of_true rfl hne
  · exact iff_of_false nofun (not_not.mpr hctl)
  · exact iff_of_false nofun (not_not.mpr hctl)
  · exact iff_of_false nofun (not_not.mpr hctl)

theorem execDelta_noError {s t : State} {diff : Bool} {r : Nat}
    (h : exec (.denc diff r) s = .next t ∨ exec (.ddec diff) s = .next t) : t.errPin = 0#3 := by
  rcases h with h | h <;> cases h <;> exact complete_errPin _ _

theorem execComp_not_countMismatch {s t : State} {diff : Bool} (h : exec (.comp diff) s = .next t) : t.errPin ≠ 2#3 := by
  rcases exec_comp_cases h with ⟨-, -, rfl⟩ | ⟨-, rfl⟩ <;> rw [complete_errPin] <;> decide

theorem execSer_not_countMismatch {s t : State} (h : exec .ser s = .next t) : t.errPin ≠ 2#3 := by
  rcases exec_ser_cases h with ⟨-, u, rfl⟩ | ⟨-, rfl⟩ <;> rw [complete_errPin] <;> decide

theorem execDeser_not_countMismatch {s t : State} (h : exec .deser s = .next t) : t.errPin ≠ 2#3 := by
  rcases exec_deser_cases h with ⟨-, rfl⟩ | ⟨-, -, rfl⟩ | ⟨-, -, -, -, u, rfl⟩ <;> rw [complete_errPin] <;> decide

/-- After `DESER` the count agrees (R134), so the second stage of `DECOMPENV` passes the check. -/
theorem execDecompenv_not_countMismatch {s u : State} {diff : Bool} (hu : exec (.decompenv diff) s = .next u) : u.errPin ≠ 2#3 := by
  have ht := exec_deser s
  rcases exec_decompenv_cases ht hu with ⟨h0, hsecond⟩ | ⟨-, herr, -⟩
  · exact mt (execDecomp_countMismatch_iff hsecond).mp (not_not.mpr (execDeser_noError ht h0))
  · rw [herr]
    exact execDeser_not_countMismatch ht

theorem not_countMismatch_of_ne_decomp {i : Instr} {s t : State} (hi : ∀ diff, i ≠ .decomp diff) (h : exec i s = .next t) :
    t.errPin ≠ 2#3 := by
  cases i with
  | qenc => rcases exec_qenc_cases h with ⟨-, u, rfl⟩ | ⟨-, rfl⟩ <;> rw [complete_errPin] <;> decide
  | qdec => rcases exec_qdec_cases h with ⟨-, rfl⟩ | ⟨-, u, rfl⟩ <;> rw [complete_errPin] <;> decide
  | denc diff r => rw [execDelta_noError (.inl h)]; decide
  | ddec diff => rw [execDelta_noError (r := 1) (.inr h)]; decide
  | comp diff => exact execComp_not_countMismatch h
  | decomp diff => exact absurd rfl (hi diff)
  | ser => exact execSer_not_countMismatch h
  | deser => exact execDeser_not_countMismatch h
  | compenv diff =>
    rcases exec_compenv_cases (exec_comp diff s) h with ⟨-, hsecond⟩ | ⟨-, herr, -⟩
    · exact execSer_not_countMismatch hsecond
    · rw [herr]
      exact execComp_not_countMismatch (exec_comp diff s)
  | decompenv diff => exact execDecompenv_not_countMismatch h

/-- Settles O38: `DECOMP` by its cases; every other command ends in cases with other errors. -/
theorem countMismatchExactly : Obligations.CountMismatchExactly :=
  ⟨fun _ _ _ => execDecomp_countMismatch_iff, fun _ _ _ => not_countMismatch_of_ne_decomp⟩

/-! ### `RegionOverflow` (R158) -/

theorem execQenc_overflow_iff {s t : State} (h : exec .qenc s = .next t) :
    t.errPin = 4#3 ↔ fits s.cfg.payCap (klen s.q.v0 + klen s.q.v1 + klen s.q.v2 + klen s.q.v3) = false := by
  rcases exec_qenc_cases h with ⟨hf, u, rfl⟩ | ⟨hf, rfl⟩ <;> rw [complete_errPin, errCode_eq_four_iff, hf]
  · exact iff_of_false nofun nofun
  · exact iff_of_true rfl rfl

theorem execComp_overflow_iff {s t : State} {diff : Bool} (h : exec (.comp diff) s = .next t) :
    t.errPin = 4#3 ↔ fits s.cfg.payCap (compress s.cfg.ctrlOrder diff s.seqVal).1.length = false ∨
      fits s.cfg.ctlCap (ceil4 s.seq.len) = false := by
  rcases exec_comp_cases h with ⟨hp, hc, rfl⟩ | ⟨hf, rfl⟩ <;> rw [complete_errPin, errCode_eq_four_iff]
  · rw [hp, hc]
    exact iff_of_false nofun (by simp)
  · exact iff_of_true rfl hf

theorem execDecomp_overflow_iff {s t : State} {diff : Bool} (h : exec (.decomp diff) s = .next t) :
    t.errPin = 4#3 ↔ s.ctl.len = ceil4 s.ecount.toNat ∧ ¬ Starves s.cfg.ctrlOrder s.payVal s.ctlVal ∧
      s.cfg.seqCap.val < s.ecount.toNat := by
  rcases exec_decomp_cases h with ⟨hne, rfl⟩ | ⟨-, hst, rfl⟩ | ⟨hctl, hst, hlt, rfl⟩ | ⟨-, -, hle, u, rfl⟩ <;>
    rw [complete_errPin, errCode_eq_four_iff]
  · exact iff_of_false nofun fun hand => hne hand.1
  · exact iff_of_false nofun fun hand => hand.2.1 hst
  · exact iff_of_true rfl ⟨hctl, hst, hlt⟩
  · exact iff_of_false nofun fun hand => Nat.not_lt.mpr hle hand.2.2

theorem execSer_overflow_iff {s t : State} (h : exec .ser s = .next t) :
    t.errPin = 4#3 ↔ fits s.cfg.envCap (4 + s.ctl.len + s.pay.len) = false := by
  rcases exec_ser_cases h with ⟨hf, u, rfl⟩ | ⟨hf, rfl⟩ <;> rw [complete_errPin, errCode_eq_four_iff, hf]
  · exact iff_of_false nofun nofun
  · exact iff_of_true rfl rfl

theorem execDeser_overflow_iff {s t : State} (h : exec .deser s = .next t) :
    t.errPin = 4#3 ↔ 4 + ceil4 (leValue (s.envVal.take 4)) ≤ s.env.len ∧
      (fits s.cfg.ctlCap (ceil4 (leValue (s.envVal.take 4))) = false ∨
        fits s.cfg.payCap (s.env.len - 4 - ceil4 (leValue (s.envVal.take 4))) = false) := by
  rcases exec_deser_cases h with ⟨hlt, rfl⟩ | ⟨hle, hf, rfl⟩ | ⟨-, hc, hp, -, u, rfl⟩ <;> rw [complete_errPin, errCode_eq_four_iff]
  · exact iff_of_false nofun fun hand => Nat.not_le.mpr hlt hand.1
  · exact iff_of_true rfl ⟨hle, hf⟩
  · rw [hc, hp]
    exact iff_of_false nofun (by simp)

theorem execCompenv_overflow_iff {s t u : State} {diff : Bool} (ht : exec (.comp diff) s = .next t)
    (hu : exec (.compenv diff) s = .next u) :
    u.errPin = 4#3 ↔ t.errPin = 4#3 ∨ (t.errPin = 0#3 ∧ fits s.cfg.envCap (4 + t.ctl.len + t.pay.len) = false) := by
  rcases exec_compenv_cases ht hu with ⟨h0, hsecond⟩ | ⟨h0, herr, -⟩
  · rw [execSer_overflow_iff hsecond, (preserves_exec ht).cfg]
    simp [h0]
  · simp [h0, herr]

theorem execDecompenv_overflow_iff {s t u : State} {diff : Bool} (ht : exec .deser s = .next t)
    (hu : exec (.decompenv diff) s = .next u) :
    u.errPin = 4#3 ↔ t.errPin = 4#3 ∨ (t.errPin = 0#3 ∧ ¬ Starves t.cfg.ctrlOrder t.payVal t.ctlVal ∧
      s.cfg.seqCap.val < t.ecount.toNat) := by
  rcases exec_decompenv_cases ht hu with ⟨h0, hsecond⟩ | ⟨h0, herr, -⟩
  · rw [execDecomp_overflow_iff hsecond, ← (preserves_exec ht).cfg]
    simp [h0, execDeser_noError ht h0]
  · simp [h0, herr]

/-- `QDEC` has no output region. -/
theorem execQdec_not_overflow {s t : State} (h : exec .qdec s = .next t) : t.errPin ≠ 4#3 := by
  rcases exec_qdec_cases h with ⟨-, rfl⟩ | ⟨-, u, rfl⟩ <;> rw [complete_errPin] <;> decide

/-- Settles O39: each command by its cases, a composite one by the stage that ended it. -/
theorem regionOverflowExactly : Obligations.RegionOverflowExactly :=
  ⟨fun _ _ => ⟨by simp [fits], rfl⟩, fun _ _ => execQenc_overflow_iff, fun _ _ _ => execComp_overflow_iff,
    fun _ _ _ => execDecomp_overflow_iff, fun _ _ => execSer_overflow_iff, fun _ _ => execDeser_overflow_iff,
    fun _ _ _ _ => execCompenv_overflow_iff, fun _ _ _ _ => execDecompenv_overflow_iff, fun _ _ _ _ => execDelta_noError,
    fun _ _ => execQdec_not_overflow⟩

/-! ### What a failing command leaves (R155) -/

theorem execQenc_failed {s t : State} (h : exec .qenc s = .next t) (ht : t.errPin ≠ 0#3) :
    t.payVal = [] ∧ t = { s with pay := t.pay, status := t.status } := by
  rcases exec_qenc_cases h with ⟨-, u, rfl⟩ | ⟨-, rfl⟩
  · exact absurd (complete_errPin _ _) ht
  · exact ⟨values_clear _ _, rfl⟩

theorem execQdec_failed {s t : State} (h : exec .qdec s = .next t) (ht : t.errPin ≠ 0#3) : t = { s with status := t.status } := by
  rcases exec_qdec_cases h with ⟨-, rfl⟩ | ⟨-, u, rfl⟩
  · rfl
  · exact absurd (complete_errPin _ _) ht

theorem execComp_failed {s t : State} {diff : Bool} (h : exec (.comp diff) s = .next t) (ht : t.errPin ≠ 0#3) :
    t.payVal = [] ∧ t.ctlVal = [] ∧ t = { s with pay := t.pay, ctl := t.ctl, status := t.status } := by
  rcases exec_comp_cases h with ⟨-, -, rfl⟩ | ⟨-, rfl⟩
  · exact absurd (complete_errPin _ _) ht
  · exact ⟨values_clear _ _, values_clear _ _, rfl⟩

theorem execDecomp_failed {s t : State} {diff : Bool} (h : exec (.decomp diff) s = .next t) (ht : t.errPin ≠ 0#3) :
    t.seqVal = [] ∧ t = { s with seq := t.seq, status := t.status } := by
  rcases exec_decomp_cases h with ⟨-, rfl⟩ | ⟨-, -, rfl⟩ | ⟨-, -, -, rfl⟩ | ⟨-, -, -, u, rfl⟩
  · exact ⟨values_clear _ _, rfl⟩
  · exact ⟨values_clear _ _, rfl⟩
  · exact ⟨values_clear _ _, rfl⟩
  · exact absurd (complete_errPin _ _) ht

theorem execSer_failed {s t : State} (h : exec .ser s = .next t) (ht : t.errPin ≠ 0#3) :
    t.envVal = [] ∧ t = { s with env := t.env, status := t.status } := by
  rcases exec_ser_cases h with ⟨-, u, rfl⟩ | ⟨-, rfl⟩
  · exact absurd (complete_errPin _ _) ht
  · exact ⟨values_clear _ _, rfl⟩

theorem execDeser_failed {s t : State} (h : exec .deser s = .next t) (ht : t.errPin ≠ 0#3) :
    t.ctlVal = [] ∧ t.payVal = [] ∧ t = { s with ctl := t.ctl, pay := t.pay, status := t.status } := by
  rcases exec_deser_cases h with ⟨-, rfl⟩ | ⟨-, -, rfl⟩ | ⟨-, -, -, -, u, rfl⟩
  · exact ⟨values_clear _ _, values_clear _ _, rfl⟩
  · exact ⟨values_clear _ _, values_clear _ _, rfl⟩
  · exact absurd (complete_errPin _ _) ht

theorem execCompenv_failed {s u : State} {diff : Bool} (hu : exec (.compenv diff) s = .next u) (herr : u.errPin ≠ 0#3) :
    u.envVal = [] := by
  rcases exec_compenv_cases (exec_comp diff s) hu with ⟨-, hsecond⟩ | ⟨-, -, henv⟩
  · exact (execSer_failed hsecond herr).1
  · exact henv

theorem execDecompenv_failed {s u : State} {diff : Bool} (hu : exec (.decompenv diff) s = .next u) (herr : u.errPin ≠ 0#3) :
    u.seqVal = [] := by
  rcases exec_decompenv_cases (exec_deser s) hu with ⟨-, hsecond⟩ | ⟨-, -, hseq⟩
  · exact (execDecomp_failed hsecond herr).1
  · exact hseq

/-- Settles O40: each row by the command's failing cases. -/
theorem noOutputOnFailure : Obligations.NoOutputOnFailure :=
  ⟨fun _ _ => execQenc_failed, fun _ _ => execQdec_failed, fun _ _ _ => execComp_failed, fun _ _ _ => execDecomp_failed,
    fun _ _ => execSer_failed, fun _ _ => execDeser_failed, fun _ _ _ => execCompenv_failed, fun _ _ _ => execDecompenv_failed⟩

end Sys2Proof.Machine
end

section
/-! Hazards of the host's choices (70_reset_and_hazards.md R187, R192, R195): a sequence that decreases, a `diff` flag that does not
match the data, and capacities that rule out `RegionOverflow`. -/

namespace Sys2Proof.Machine

/-! ### A decrease between neighbours (R192) -/

theorem toNat_sub_of_decrease {a b : Word} {x : Nat} (hx : 0 < x) (h : a.toNat = b.toNat + x) : (b - a).toNat = 2 ^ 32 - x := by
  have ha := a.isLt
  rw [BitVec.toNat_sub]
  omega

theorem klen_eq_four_iff (v : Word) : klen v = 4 ↔ 2 ^ 24 ≤ v.toNat := by
  have hthree := klen_le_iff v (k := 3) (by decide)
  have hfour := klen_le_four v
  omega

/-- Settles O17: a later slot holds the difference from the slot before it, which wraps. -/
theorem decreaseGivesAWrappedDelta : Obligations.DecreaseGivesAWrappedDelta := by
  intro v x i j hij hx h
  have hdelta : ((deltaFwd v 4).slot j).toNat = 2 ^ 32 - x := by
    rw [deltaFwd_slot_succ v 4 hij, padQuad_slot_of_lt v j.isLt, padQuad_slot_of_lt v i.isLt]
    exact toNat_sub_of_decrease hx h
  refine ⟨hdelta, fun hle => (klen_eq_four_iff _).mpr ?_⟩
  rw [hdelta]
  omega

/-! ### A mismatched `diff` flag (R187) -/

theorem execDecomp_noError_iff {s t : State} {diff : Bool} (h : exec (.decomp diff) s = .next t) :
    t.errPin = 0#3 ↔ s.ctl.len = ceil4 s.ecount.toNat ∧ ¬ Starves s.cfg.ctrlOrder s.payVal s.ctlVal ∧
      s.ecount.toNat ≤ s.cfg.seqCap.val := by
  rcases exec_decomp_cases h with ⟨hne, rfl⟩ | ⟨-, hst, rfl⟩ | ⟨-, -, hlt, rfl⟩ | ⟨hctl, hst, hle, u, rfl⟩ <;>
    rw [complete_errPin, errCode_eq_zero_iff]
  · exact iff_of_false nofun fun hand => hne hand.1
  · exact iff_of_false nofun fun hand => hand.2.1 hst
  · exact iff_of_false nofun fun hand => Nat.not_lt.mpr hand.2.2 hlt
  · exact iff_of_true rfl ⟨hctl, hst, hle⟩

/-- Settles O26: the exact condition of each way `DECOMP` can end does not speak of `diff`. -/
theorem diffMismatchIsNotNoticed : Obligations.DiffMismatchIsNotNoticed := by
  intro s t u ht hu
  rcases exec_decomp_cases ht with ⟨hne, rfl⟩ | ⟨hctl, hst, rfl⟩ | ⟨hctl, hst, hlt, rfl⟩ | ⟨hctl, hst, hle, t', rfl⟩ <;>
    rw [complete_errPin]
  · exact ((execDecomp_countMismatch_iff hu).mpr hne).symm
  · exact ((execDecomp_truncated_iff hu).mpr ⟨hctl, hst⟩).symm
  · exact ((execDecomp_overflow_iff hu).mpr ⟨hctl, hst, hlt⟩).symm
  · exact ((execDecomp_noError_iff hu).mpr ⟨hctl, hst, hle⟩).symm

/-! ### Capacities that suffice (R195) -/

theorem length_compress_fst_le (o : CtrlOrder) (diff : Bool) {s : List Word} {n : Nat} (h : s.length ≤ n) :
    (compress o diff s).1.length ≤ 16 * ceil4 n := by
  obtain ⟨-, -, -, hhigh, -⟩ := compressedLengths o diff s
  exact hhigh.trans (Nat.mul_le_mul_left 16 (ceil4_mono h))

theorem length_compress_snd_le (o : CtrlOrder) (diff : Bool) {s : List Word} {n : Nat} (h : s.length ≤ n) :
    (compress o diff s).2.length ≤ ceil4 n :=
  (length_compress_snd o diff s).trans_le (ceil4_mono h)

theorem length_envelope_le {s : State} {n : Nat} (diff : Bool) (h : s.seq.len ≤ n) :
    (s.envelope diff).length ≤ 4 + 17 * ceil4 n := by
  have hpay := length_compress_fst_le s.cfg.ctrlOrder diff ((length_seqVal s).trans_le h)
  have hctl := ceil4_mono h
  rw [length_envelope]
  omega

theorem execQenc_noError_of_fits {s t : State} (hf : fits (s.cfg.cap .pay) 16 = true) (h : exec .qenc s = .next t) :
    t.errPin = 0#3 := by
  rw [execQenc_fits s (fits_total hf (quadEncode_length_bounds _ _).2)] at h
  cases h
  exact complete_errPin _ _

/-- Settles O60: each output is at most as long as the rule's capacity for it, by the 4 to 16 bytes of a quad. -/
theorem capacityPlanning : Obligations.CapacityPlanning := by
  refine ⟨fun s t n diff hlen hc hp he h => ?_, fun s t n diff hn hs h hover => ?_, fun _ _ => execQenc_noError_of_fits⟩
  · have hval : s.seqVal.length ≤ n := (length_seqVal s).trans_le hlen
    have hpay := fits_total hp (length_compress_fst_le s.cfg.ctrlOrder diff hval)
    have hctl := fits_total hc (length_compress_snd_le s.cfg.ctrlOrder diff hval)
    have henv := fits_total he (length_envelope_le diff hlen)
    rw [execComp_fits hpay hctl, execCompenv_fits hpay hctl henv] at h
    rcases h with h | h <;> cases h <;> exact complete_errPin _ _
  · obtain ⟨-, -, hlt⟩ := (execDecomp_overflow_iff h).mp hover
    have hcap : n ≤ s.cfg.seqCap.val := of_decide_eq_true hs
    omega

end Sys2Proof.Machine
end

section
/-! Which accesses are served when (70_reset_and_hazards.md R184): the moves of a busy block, and those of an idle one. -/

namespace Sys2Proof.Machine

/-! ### The busy block -/

/-- What a busy block serves at once: reads of `CMD`, `STATUS` and `CFG`. -/
theorem servedWhileBusy_iff (a : HostAccess) :
    servedWhileBusy a = true ↔ a = .regRead 0x00 ∨ a = .regRead 0x01 ∨ a = .regRead 0x02 := by
  cases a with
  | regRead n =>
    simp only [servedWhileBusy, decide_eq_true_eq, HostAccess.regRead.injEq, Fin.ext_iff]
    show n.val ≤ 2 ↔ n.val = 0 ∨ n.val = 1 ∨ n.val = 2
    omega
  | _ => exact iff_of_false nofun (by simp)

section
variable {s : State} {a : HostAccess} {es : List HostEvent} (hbusy : s.busy = true) (hi : s.inbox = .access a :: es)
include hbusy hi

theorem step_busy_served (ha : servedWhileBusy a = true) : step s = perform a { s with inbox := es } := by
  simp only [step_busy hbusy, moveBusy, hi, ha, if_true]

theorem step_busy_not_served (ha : servedWhileBusy a = false) :
    step s = .next { s with inbox := es, held := s.held ++ [a] } := by
  simp [step_busy hbusy, moveBusy, hi, ha]

end

theorem step_busy_regRead {s : State} {n : Fin 64} {v : Nat} {es : List HostEvent} (hbusy : s.busy = true)
    (hi : s.inbox = .access (.regRead n) :: es) (hn : servedWhileBusy (.regRead n) = true) (hv : regValue s (regOf n) = v) :
    step s = .next { s with inbox := es, replies := s.replies ++ [(.regRead n, v)] } :=
  hv ▸ step_busy_served hbusy hi hn

theorem step_busy_continues {s : State} (hbusy : s.busy = true) : Continues s := by
  match hi : s.inbox with
  | [] =>
    obtain ⟨e, u, hrun⟩ := runCommand_ends s
    exact ⟨_, (step_busy_nil hbusy hi).trans hrun⟩
  | .elapse :: es =>
    obtain ⟨e, u, hrun⟩ := runCommand_ends { s with inbox := es }
    exact ⟨_, (step_busy_elapse hbusy hi).trans hrun⟩
  | .reset :: es => exact ⟨_, step_reset hi⟩
  | .access a :: es =>
    cases ha : servedWhileBusy a with
    | false => exact ⟨_, step_busy_not_served hbusy hi ha⟩
    | true =>
      rcases (servedWhileBusy_iff a).mp ha with rfl | rfl | rfl <;> exact ⟨_, step_busy_regRead hbusy hi rfl rfl⟩

/-- Settles O46: the accesses served at once are the three reads, the value of `CFG` is that of `cfgWord_toNat`. -/
theorem busyBlockHoldsAccesses : Obligations.BusyBlockHoldsAccesses := by
  refine ⟨fun s => step_busy_continues, fun s es a hbusy hi => ⟨?_, ?_, ?_, ?_, fun h0 h1 h2 => ?_⟩⟩
  · rintro rfl
    exact step_busy_regRead hbusy hi rfl rfl
  · rintro rfl
    exact step_busy_regRead hbusy hi rfl rfl
  · rintro rfl ho
    exact step_busy_regRead hbusy hi rfl ((cfgWord_toNat s.cfg).trans (if_pos ho))
  · rintro rfl ho
    exact step_busy_regRead hbusy hi rfl ((cfgWord_toNat s.cfg).trans (if_neg (by simp [ho])))
  · refine step_busy_not_served hbusy hi (Bool.eq_false_iff.mpr fun ha => ?_)
    rcases (servedWhileBusy_iff a).mp ha with h | h | h
    · exact h0 h
    · exact h1 h
    · exact h2 h

/-! ### The idle block -/

/-- Settles O47: `moveHeld` where an access is held, `moveIdle` where none is. -/
theorem idleBlockPerformsAccesses : Obligations.IdleBlockPerformsAccesses := by
  refine fun s hbusy => ⟨fun a as hheld => ?_, fun hheld => ?_⟩
  · rw [step_held hbusy hheld]
    exact ⟨fun hi => by simp only [moveHeld, hi], fun b es hi => by simp only [moveHeld, hi],
      fun es hi => by simp only [moveHeld, hi]⟩
  · rw [step_idle hbusy hheld]
    exact ⟨fun a es hi => by simp only [moveIdle, hi], fun hi => by simp only [moveIdle, hi]⟩

end Sys2Proof.Machine
end

section
/-! The commands that read a region, and `QENC`, straight after reset (70_reset_and_hazards.md R182): every region is empty, every
register 0. -/

namespace Sys2Proof.Machine

theorem fits_zero (cap : Option Nat) : fits cap 0 = true := fits_iff.mpr fun c _ => Nat.zero_le c

theorem quadEncode_zero (o : CtrlOrder) : quadEncode o ⟨0#32, 0#32, 0#32, 0#32⟩ = ([0#8, 0#8, 0#8, 0#8], 0#8) := by
  cases o <;> decide

/-- No control byte declares a quad of no bytes. -/
theorem quadDecode_nil (o : CtrlOrder) (c : Byte) : quadDecode o [] c = none :=
  (quadDecode_none_iff o [] c).mpr (Nat.lt_of_lt_of_le (by decide) (qlen_bounds o c).1)

theorem decompress_nil (o : CtrlOrder) (diff : Bool) : decompress o diff [] [] 0 = .ok [] :=
  decompress_ok_iff.mpr ⟨rfl, [], rfl, rfl⟩

theorem serialize_nil_zero : serialize [] [] 0#32 = [0#8, 0#8, 0#8, 0#8] := rfl

theorem envelope_resetWith (c : Config) (diff : Bool) : (State.resetWith c).envelope diff = [0#8, 0#8, 0#8, 0#8] :=
  serialize_nil_zero

/-- Settles O49: every region is empty, so `COMP` and `DECOMP` have no quad to work on, an envelope is the four bytes of the count 0,
and the decoders lack bytes. -/
theorem commandsStraightAfterReset : Obligations.CommandsStraightAfterReset := by
  intro c diff hpay henv
  have hzero := quadEncode_zero c.ctrlOrder
  refine ⟨?comp, ?decomp, ?ser, ?qenc, ?qdec, ?deser, ?decompenv, ?compenv⟩
  case comp =>
    exact ⟨_, execComp_fits (fits_zero _) (fits_zero _), complete_errPin _ _, rfl, payVal_compressed _ _, ctlVal_compressed _ _⟩
  case decomp =>
    exact ⟨_, execDecomp_ok (decompress_nil _ _) (fits_zero _), complete_errPin _ _, values_store _ _ _⟩
  case ser => exact ⟨_, execSer_fits henv, complete_errPin _ _, (values_store _ _ _).trans serialize_nil_zero⟩
  case qenc =>
    have hlen : (quadEncode c.ctrlOrder ⟨0#32, 0#32, 0#32, 0#32⟩).1.length = 4 := by rw [hzero]; rfl
    refine ⟨_, execQenc_fits _ (hlen ▸ hpay), complete_errPin _ _, congrArg Prod.snd hzero, ?_, congrArg (BitVec.ofNat 5) hlen⟩
    exact (values_store _ _ _).trans (congrArg Prod.fst hzero)
  case qdec => exact ⟨_, execQdec_truncated _ (quadDecode_nil _ _), complete_errPin _ _⟩
  case deser => exact ⟨_, exec_deser _, complete_errPin .truncatedInput _⟩
  case decompenv =>
    obtain ⟨t, hrun, herr, -⟩ := execDecompenv_truncated (s := State.resetWith c) diff rfl
    exact ⟨t, hrun, herr⟩
  case compenv =>
    exact ⟨_, execCompenv_fits (fits_zero _) (fits_zero _) henv, complete_errPin _ _,
      (values_store _ _ _).trans (envelope_resetWith c diff)⟩

end Sys2Proof.Machine
end

section
/-! A busy block runs the command its latched byte decodes to (60_exceptions.md section 1). -/

namespace Sys2Proof.Machine

/-- Settles O43: the step is `runCommand`, with the event consumed where there is one, and the latched byte is legal. -/
theorem stepRunsTheDecodedCommand : Obligations.StepRunsTheDecodedCommand :=
  fun _ _ hbusy hdecode => ⟨fun hinbox => (step_busy_nil hbusy hinbox).trans (runCommand_legal hdecode),
    fun _ hinbox => (step_busy_elapse hbusy hinbox).trans (runCommand_legal hdecode)⟩

end Sys2Proof.Machine
end
